-- ==== Sys2Proof/Word.lean ====
section
/-! DEFINITION. The values of the PWM Core: a bit, an observation of `led`, and a command word. -/

namespace Sys2Proof

/-- `Bit = {0, 1}` (rule R15). -/
inductive Bit where
  | zero
  | one
deriving DecidableEq, Repr

/-- An observation of `led`: `0`, `1`, or `X`, "sampled as neither 0 nor 1" (rule R16). -/
inductive Tri where
  | zero
  | one
  | x
deriving DecidableEq, Repr, Inhabited

/-- A word of the host's command stream, with its width: a command is a word of exactly `N + 2`
bits, and a word of any other width is refused (rules R51, R56). Bit 0 is the least significant. -/
structure Word where
  width : Nat
  bits  : BitVec width
deriving DecidableEq, Repr

end Sys2Proof
end

