-- ==== Sys2Proof/Config.lean ====
section
/-! DEFINITION. What is fixed for the block or for the reference scenario, and the one free value. -/

namespace Sys2Proof

/-- The document's reference value of `N`, the width of the duty value (rule R9, decision D21).
`N` itself is a field of State: every definition and statement holds for every `N ≥ 1`. -/
def Config.referenceN : Nat := 4

/-- `INC`, the amount added to `cnt` at each edge (rule R11, decision D4). -/
def Config.increment : Nat := 1

/-- `CNT_RESET`, the power-on value of `cnt` (rule R102, conflict C1). -/
def Config.cntReset : Nat := 0

/-- The reference clock frequency, 1 MHz, diagnostic only (rule R12, decision D22). -/
def Config.referenceFclkHz : ℚ := 1000000

/-- The reference SettleCycles (rule R12, decision D23). -/
def Config.referenceSettleCycles : Nat := 32

/-- The reference MeasureCycles (rule R12, decision D23). -/
def Config.referenceMeasureCycles : Nat := 200

/-- The reference Tolerance, an exact rational (rules R12, R89, decision D23). -/
def Config.referenceTolerance : ℚ := 1 / 10

/-- FREE VALUE. The `k`-th draw of the machine: `draw r : Tri`, "any of 0, 1, X; no law" (rules R17,
R71). It has no body that a proof can see, so a statement about it holds for every sequence of
draws (log 7). -/
opaque Config.freeTri : Nat → Tri

end Sys2Proof
end

