-- ==== Sys2Proof/Syntax.lean ====
section
/-! DEFINITION. The commands of the PWM Core, one constructor per row of the opcode table. -/

namespace Sys2Proof

/-- The commands of the host's command stream (rules R18, R53). -/
inductive Instr where
  /-- One active clock edge (rule R66). -/
  | tick
  /-- Drive the duty value `v`, `0 ≤ v ≤ 2^N − 1` (rules R54, R63). -/
  | set (v : Nat)
  /-- Observe `led` (rule R71). -/
  | sample
deriving DecidableEq, Repr

end Sys2Proof
end

