-- ==== Sys2Proof/WellFormed.lean ====
section
/-! DEFINITION. Which commands exist at a given width `N`. -/

namespace Sys2Proof

/-- The one check: the duty value of `SET` lies in "0 to 2^N − 1 inclusive" (rules R54, R59). -/
def Instr.wf (N : Nat) : Instr → Bool
  | .tick => true
  | .set v => decide (v < 2 ^ N)
  | .sample => true

/-- The command is one of the block whose duty value has `N` bits. -/
abbrev WellFormed (N : Nat) (i : Instr) : Prop := i.wf N = true

/-- Every command of the list is one of the block whose duty value has `N` bits. -/
abbrev AllWellFormed (N : Nat) (is : List Instr) : Prop := ∀ i ∈ is, WellFormed N i

end Sys2Proof
end

