-- ==== Sys2Proof/Decode.lean ====
section
/-! DEFINITION. Decoding a command word, total on words of every width and rejecting by name; then
the encoder, and the opcode map as match and mask (rules R51 to R58). -/

namespace Sys2Proof

/-- Why a word spells no command: the three kinds of rule R55, and the wrong width of rule R56. -/
inductive Reserved where
  /-- The word is not exactly `N + 2` bits wide (rule R56). -/
  | wrongWidth
  /-- `op = 00` with `payload ≠ 0` (rule R55). -/
  | tickPayload
  /-- `op = 10` with `payload ≠ 0` (rule R55). -/
  | samplePayload
  /-- `op = 11` with any payload (rule R55). -/
  | opReserved
deriving DecidableEq, Repr

/-- The decoder's verdict on a word (rule R56). -/
inductive Verdict where
  | command (i : Instr)
  | invalid (why : Reserved)
deriving DecidableEq, Repr

/-- `op = w[N+1:N]` (rule R52). -/
def opField (N : Nat) (w : BitVec (N + 2)) : BitVec 2 := w.extractLsb' N 2

/-- `payload = w[N-1:0]` (rule R52), an unsigned value, not extended or scaled (rule R54). -/
def payloadField (N : Nat) (w : BitVec (N + 2)) : BitVec N := w.extractLsb' 0 N

/-- The opcode map on the two fields (rules R53, R55). -/
def decodeFields (op : BitVec 2) (payload : Nat) : Verdict :=
  if op = 0 then
    if payload = 0 then .command .tick else .invalid .tickPayload
  else if op = 1 then
    .command (.set payload)
  else if op = 2 then
    if payload = 0 then .command .sample else .invalid .samplePayload
  else
    .invalid .opReserved

/-- The verdict on an `N + 2`-bit word (rule R53). -/
def decodeBits (N : Nat) (w : BitVec (N + 2)) : Verdict :=
  decodeFields (opField N w) (payloadField N w).toNat

/-- The verdict on any word: one that is not `N + 2` bits wide is no command word (rule R56). -/
def decode (N : Nat) (w : Word) : Verdict :=
  if h : w.width = N + 2 then decodeBits N (w.bits.cast h) else .invalid .wrongWidth

/-- The `op` field of a command (rule R53). -/
def Instr.opcode : Instr → Nat
  | .tick => 0
  | .set _ => 1
  | .sample => 2

/-- The `payload` field of a command: the duty value for `SET`, 0 for every other (rule R52). -/
def Instr.payload : Instr → Nat
  | .tick => 0
  | .set v => v
  | .sample => 0

/-- The `N + 2` bits with `op` in `w[N+1:N]` and `payload` in `w[N-1:0]` (rule R52). -/
def packFields (N op payload : Nat) : BitVec (N + 2) := BitVec.ofNat (N + 2) (op * 2 ^ N + payload)

/-- The word of a command (rules R51 to R53). -/
def encode (N : Nat) (i : Instr) : Word := ⟨N + 2, packFields N i.opcode i.payload⟩

/-- One line of the opcode map as match and mask over an `N + 2`-bit word (rule R53). -/
structure OpcodeRow where
  mnemonic : String
  pattern  : Nat
  mask     : Nat
deriving DecidableEq, Repr

/-- The three match and mask lines for general `N` (rule R53). -/
def opcodeRows (N : Nat) : List OpcodeRow :=
  [ ⟨"TICK", 0, 2 ^ (N + 2) - 1⟩,
    ⟨"SET", 1 <<< N, 3 <<< N⟩,
    ⟨"SAMPLE", 2 <<< N, 2 ^ (N + 2) - 1⟩ ]

/-- The mnemonic of a command, as the assembler and the opcode table spell it (rule R59). -/
def Instr.mnemonic : Instr → String
  | .tick => "TICK"
  | .set _ => "SET"
  | .sample => "SAMPLE"

/-- The word `w` matches the row (rule R53). -/
def OpcodeRow.hits (r : OpcodeRow) (w : Nat) : Bool := w &&& r.mask == r.pattern

/-- DESIGN CHOICE (log 9). The word that a container of `nbits` bits stands for, which the spec leaves
open: it knows only words that carry their exact width (rules R51, R56). If the container's number
fits in `N + 2` bits it stands for the `N + 2`-bit word of that number, whatever `nbits` is: wider,
narrower (5 bits at `N = 4`, one byte at `N = 8`: the bits above `nbits` are 0) or not whole bytes
(7 bits). If the number does not fit, it stands for a word of the container's own width, which rule
R56 refuses. A word set into the stream as such does not pass through here, and `decode`
refuses it if its width is another. -/
def containerWord (N nbits w : Nat) : Word :=
  let b := w % 2 ^ nbits
  if b < 2 ^ (N + 2) then ⟨N + 2, BitVec.ofNat (N + 2) b⟩ else ⟨nbits, BitVec.ofNat nbits b⟩

/-- The instruction the decoder reads from the bits `w`, numbered as spec/opcode_table.json numbers
them, at the table's own width `N = 4`; `none` where it refuses. How `nbits` bits stand for a word is
`containerWord`'s DESIGN CHOICE (log 9). -/
def decodeTableWord (nbits w : Nat) : Option Instr :=
  match decode Config.referenceN (containerWord Config.referenceN nbits w) with
  | .command i => some i
  | .invalid _ => none

end Sys2Proof
end

