-- ==== Sys2Proof/Machine/State.lean ====
section
/-! DEFINITION. The machine's state, the reasons it can stop, and the state at power-on. -/

namespace Sys2Proof.Machine

/-- There is none: the block raises no exceptions (rule R78) and no case of the spec maps to a fault
or a stuck state (rule R79 and 93_implementation_defined.md). -/
inductive Fault where
deriving DecidableEq, Repr

/-- Why the model gives no meaning. -/
inductive Refusal where
  /-- Raised by an arm of exec for an instruction without a meaning. No arm of this model raises it.
  Safe. -/
  | notModelled (mnemonic : String)
  /-- `refuse(reserved_command)`: raised by fetching a reserved or malformed command word (rules R55,
  R56). The state is unchanged. Safe: nothing can be proved of a stream that holds one. -/
  | reservedCommand (why : Reserved)
  /-- Raised by SET for an operand outside `0 .. 2^N − 1`, which is refused and not truncated (rule
  R59). No word decodes to one. Safe (log 8). -/
  | dutyOutOfRange
  /-- Raised by a step when the host's command stream is empty: the end of the run (rule R107, decision
  D20). Safe: nothing is said of what the block does after the stream (log 5). -/
  | streamEnded
deriving DecidableEq, Repr

/-- The block (`cnt`, `value`), the environment's bookkeeping (`edges`, `trace`, `mark`, `stream`),
the parameter `N`, and the model's own index of the next draw (rules R25, R26). -/
structure State where
  /-- `N`, the width of the duty value and, by `W = N`, of the counter (rules R9, R10; log 1). -/
  N      : Nat
  /-- `N ≥ 1` (rule R9, decision D2; log 2). -/
  N_pos  : 1 ≤ N
  /-- PwmState, the counter (rule R30). -/
  cnt    : BitVec N
  /-- DutyValue, the level of pin `value`; `none` while it was never driven (rule R32). -/
  value  : Option (BitVec N)
  /-- How many `TICK`s since power-on (rule R34). -/
  edges  : Nat
  /-- The results of every `SAMPLE`, oldest first (rule R35). -/
  trace  : List Tri
  /-- The commands the host has yet to issue, next first (rules R18, R50; log 3). -/
  stream : List Word
  /-- The refusal mark of the run, `none` while nothing was refused (rules R17, R55; log 6). -/
  mark   : Option Refusal
  /-- The model's own: the index of the next free value that a draw takes (log 7). -/
  draws  : Nat
deriving DecidableEq, Repr

/-- The power-on state of the block of width `N`, nothing issued yet (rules R38, R101 to R105). -/
def State.powerOn (N : Nat) (h : 1 ≤ N) : State where
  N      := N
  N_pos  := h
  cnt    := BitVec.ofNat N Config.cntReset
  value  := none
  edges  := 0
  trace  := []
  stream := []
  mark   := none
  draws  := 0

/-- The machine right after power-on, at the reference width (rule R9; log 1). -/
def State.reset : State := State.powerOn Config.referenceN (by decide)

end Sys2Proof.Machine
end

