-- ==== Sys2Proof/Machine/Flags.lean ====
section
/-! DEFINITION. The one-bit results. The block has no flags, condition codes or predicates (rule R29);
its only one-bit signal is the comparator's output `led`. -/

namespace Sys2Proof.Machine

/-- `bit(b)`: 1 when `b` is true and 0 when it is false (rule R15). -/
def bit (b : Bool) : Bit := if b then .one else .zero

/-- A computed output bit as an observation (rule R16). -/
def triOfBit : Bit → Tri
  | .zero => .zero
  | .one => .one

/-- The comparator: strict unsigned less-than of `cnt` against the duty value, with no saturating case
(rule R70). -/
def compareLess {N : Nat} (cnt v : BitVec N) : Bit := bit (cnt.ult v)

/-- The comparator over the held level: no value while the pin is undriven (rule R70). -/
def outputOf {N : Nat} (cnt : BitVec N) (value : Option (BitVec N)) : Option Bit :=
  match value with
  | some v => some (compareLess cnt v)
  | none => none

/-- `led`, a combinational function of the present `cnt` and the present `value` (rule R70). -/
def led (s : State) : Option Bit := outputOf s.cnt s.value

/-- The output where it is defined: on and after the first edge, with a driven `value` (rule R71). -/
def definedLed (s : State) : Option Bit := if 1 ≤ s.edges then led s else none

end Sys2Proof.Machine
end

