-- ==== Sys2Proof/Machine/Operands.lean ====
section
/-! DEFINITION. Operand assembly: the one operand of the command set, the duty value of SET. -/

namespace Sys2Proof.Machine

/-- The duty value `v` as `N` bits: unsigned, "not sign-extended, scaled or shifted" (rule R54), bit `i`
of weight `2^i` (rule R14); no value if `v` lies outside `0 .. 2^N − 1`, since it is "not
truncated" (rule R59). -/
def dutyOperand (N v : Nat) : Option (BitVec N) :=
  if v < 2 ^ N then some (BitVec.ofNat N v) else none

end Sys2Proof.Machine
end

