-- ==== Sys2Proof/Machine/Ops.lean ====
section
/-! DEFINITION. The named operations over the state: one update per field, what an edge, a drive and an
observation do, and how the next command is fetched. The block has no memory (rule R39), no registers
to select (rule R27) and no exception to take or return from (rules R78, R82, R83). -/

namespace Sys2Proof.Machine

/-- Write the counter. -/
def State.setCnt (s : State) (c : BitVec s.N) : State := { s with cnt := c }

/-- Write the level of pin `value`, all `N` bits together (rule R43). -/
def State.setValue (s : State) (v : Option (BitVec s.N)) : State := { s with value := v }

/-- Write the edge count. -/
def State.setEdges (s : State) (e : Nat) : State := { s with edges := e }

/-- Write the trace of samples. -/
def State.setTrace (s : State) (t : List Tri) : State := { s with trace := t }

/-- Write what the host has yet to issue. -/
def State.setStream (s : State) (ws : List Word) : State := { s with stream := ws }

/-- Write the refusal mark. -/
def State.setMark (s : State) (m : Option Refusal) : State := { s with mark := m }

/-- Write the index of the next draw. -/
def State.setDraws (s : State) (d : Nat) : State := { s with draws := d }

/-- The counter's next value, a function of its present value alone, modulo `2^N` (rules R31, R66). -/
def nextCnt {N : Nat} (c : BitVec N) : BitVec N := c + BitVec.ofNat N Config.increment

/-- One active clock edge: the counter advances and the edge is counted (rule R66). -/
def State.clockEdge (s : State) : State := (s.setCnt (nextCnt s.cnt)).setEdges (s.edges + 1)

/-- The host drives `v` onto pin `value`, which holds it (rules R33, R63). -/
def State.drive (s : State) (v : BitVec s.N) : State := s.setValue (some v)

/-- Append one result to the trace (rule R35). -/
def State.record (s : State) (r : Tri) : State := s.setTrace (s.trace ++ [r])

/-- A draw over `{0, 1, X}`: the next free value, and the index of the one after it (rules R17, R71;
log 7). -/
def State.drawSample (s : State) : State := (s.record (Config.freeTri s.draws)).setDraws (s.draws + 1)

/-- Observe `led`: the defined output where there is one, else a draw (rule R71). -/
def State.observe (s : State) : State :=
  match definedLed s with
  | some b => s.record (triOfBit b)
  | none => s.drawSample

/-- What fetching the next command gives. -/
inductive Fetched where
  /-- No command: the reason. -/
  | stop (why : Refusal)
  /-- The command, and the state with its word taken off the stream. -/
  | run (i : Instr) (s : State)
deriving DecidableEq, Repr

/-- Fetch the next command of the host's stream, in list order, each exactly once (rules R47, R61). A
marked run takes no further step, and a reserved or malformed word is refused (rules R55, R56). -/
def State.fetch (s : State) : Fetched :=
  match s.mark with
  | some r => .stop r
  | none =>
    match s.stream with
    | [] => .stop .streamEnded
    | w :: rest =>
      match decode s.N w with
      | .command i => .run i (s.setStream rest)
      | .invalid why => .stop (.reservedCommand why)

/-- Put `w` where the next command is fetched, in an unmarked run (log 4). -/
def State.placeNext (s : State) (w : Word) : State := (s.setStream (w :: s.stream.tail)).setMark none

/-- Keep the mark of a refusal for the rest of the run; the end of the stream is no refusal of a
command and leaves none (rule R55; log 5, 6). -/
def State.noteRefusal (s : State) (r : Refusal) : State :=
  match r with
  | .streamEnded => s
  | r => s.setMark (some r)

/-- Go on from a next state, or stop as the first part stopped. -/
def andThen (o : Host.Outcome State Fault Refusal) (f : State → Host.Outcome State Fault Refusal) :
    Host.Outcome State Fault Refusal :=
  match o with
  | .next s => f s
  | .fault r => .fault r
  | .refused r => .refused r

end Sys2Proof.Machine
end

