-- ==== Sys2Proof/Machine/ClockEdge.lean ====
section
/-! DEFINITION. The clock edge family of 41_clock_edge.md. -/

namespace Sys2Proof.Machine

/-- TICK, one active clock edge: total, reads no `value` (rules R66 to R69). -/
def execTick (s : State) : Host.Outcome State Fault Refusal := .next s.clockEdge

end Sys2Proof.Machine
end

