-- ==== Sys2Proof/Machine/Output.lean ====
section
/-! DEFINITION. The output family of 42_output.md. -/

namespace Sys2Proof.Machine

/-- SAMPLE, observe `led`: total; a sample of X is a result, not a fault (rules R71, R77). -/
def execSample (s : State) : Host.Outcome State Fault Refusal := .next s.observe

end Sys2Proof.Machine
end

