-- ==== Sys2Proof/Machine/ValueRegister.lean ====
section
/-! DEFINITION. The value register family of 40_value_register.md. -/

namespace Sys2Proof.Machine

/-- SET v, drive the duty value: total on `0 .. 2^N − 1` (rule R63); any other operand is refused, not
truncated (rule R59; log 8). -/
def execSet (v : Nat) (s : State) : Host.Outcome State Fault Refusal :=
  match dutyOperand s.N v with
  | some d => .next (s.drive d)
  | none => .refused .dutyOutOfRange

end Sys2Proof.Machine
end

