-- ==== Sys2Proof/Machine/Step.lean ====
section
/-! DEFINITION. One step: fetch the next command of the host's stream and run it. -/

namespace Sys2Proof.Machine

/-- One step of a run (rules R18, R47, R55). -/
def step (s : State) : Host.Outcome State Fault Refusal :=
  match s.fetch with
  | .stop why => .refused why
  | .run i t => exec i t

/-- `s` with the command word `w`, held in `nbits` bits, as the next command of its stream, for the
width `N` of `s`; how `nbits` bits stand for a word is `containerWord`'s DESIGN CHOICE (log 4, 9). -/
def State.withFetchWord (s : State) (nbits w : Nat) : State := s.placeNext (containerWord s.N nbits w)

end Sys2Proof.Machine
end

