-- ==== Sys2Proof/Machine/Stream.lean ====
section
/-! DEFINITION. Whole streams: a list of commands in order, and a run that keeps its refusal mark. -/

namespace Sys2Proof.Machine

/-- Run the commands in list order, each exactly once, stopping at the first that is refused (rules
R47, R55, R61). -/
def execAll : List Instr → State → Host.Outcome State Fault Refusal
  | [], s => .next s
  | i :: is, s => andThen (exec i s) (execAll is)

/-- One step of a run that goes on being observed: the next state, or at a refusal the same state with
the mark kept (rule R55). -/
def State.advance (s : State) : State :=
  match step s with
  | .next t => t
  | .fault f => nomatch f
  | .refused r => s.noteRefusal r

/-- `k` steps of such a run. -/
def State.runFor : Nat → State → State
  | 0, s => s
  | k + 1, s => State.runFor k s.advance

/-- The words of a list of commands, in order (rule R60). -/
def wordsOf (N : Nat) (is : List Instr) : List Word := is.map (encode N)

end Sys2Proof.Machine
end

