-- ==== Sys2Proof/Machine/Pseudo.lean ====
section
/-! DEFINITION. The pseudo-instructions of rule R60: each expands textually, before decoding, to a fixed
list of commands. -/

namespace Sys2Proof.Machine

/-- The pseudo-instructions (rule R60). -/
inductive Pseudo where
  /-- "wait for N edges". -/
  | ticks (k : Nat)
  /-- "discarding samples". -/
  | settle (k : Nat)
  /-- "sample OutputBit immediately after the edge fires". -/
  | step
  /-- `m` edges, each sampled. -/
  | measure (m : Nat)
  /-- One test vector: set, settle, measure. -/
  | testvec (v s m : Nat)
deriving DecidableEq, Repr

/-- `STEP`: `TICK; SAMPLE` (rule R60). -/
def stepCommands : List Instr := [.tick, .sample]

/-- `TICKS k`: `k` edges (rule R60). -/
def ticksCommands : Nat → List Instr
  | 0 => []
  | k + 1 => .tick :: ticksCommands k

/-- `MEASURE m`: `m` times `STEP` (rule R60). -/
def measureCommands : Nat → List Instr
  | 0 => []
  | m + 1 => stepCommands ++ measureCommands m

/-- `TESTVEC v, s, m`: `SET v; SETTLE s; MEASURE m` (rule R60). -/
def testvecCommands (v s m : Nat) : List Instr := .set v :: (ticksCommands s ++ measureCommands m)

/-- The expansion of a pseudo-instruction (rule R60). -/
def expand : Pseudo → List Instr
  | .ticks k => ticksCommands k
  | .settle k => ticksCommands k
  | .step => stepCommands
  | .measure m => measureCommands m
  | .testvec v s m => testvecCommands v s m

end Sys2Proof.Machine
end

