-- ==== Sys2Proof/Machine/Assembler.lean ====
section
/-! DEFINITION. The assembler of rules R59 and R60: one command or pseudo-instruction per line, text
after ';' a comment, mnemonics in upper case, an out-of-range duty value refused. Its lexical
details are in log 11. Text is a list of characters. -/

namespace Sys2Proof.Machine

/-- Why the assembler refuses a line. -/
inductive AsmError where
  /-- The line is none of the forms of rules R59 and R60. -/
  | unknownLine
  /-- A duty value outside `0 .. 2^N − 1`, refused and not truncated (rule R59). -/
  | dutyOutOfRange
deriving DecidableEq, Repr

/-- What the assembler makes of a line or of a text. -/
inductive AsmResult where
  | commands (is : List Instr)
  | refused (why : AsmError)
deriving DecidableEq, Repr

/-- The line without its comment (rule R59). -/
def stripComment : List Char → List Char
  | [] => []
  | c :: cs => if c = ';' then [] else c :: stripComment cs

/-- The characters that separate tokens (log 11). -/
def isBlank (c : Char) : Bool := c = ' ' || c = '\t' || c = '\r'

/-- Put a token that is complete before the rest, unless it is empty. -/
def emitToken (tok : List Char) (rest : List (List Char)) : List (List Char) :=
  if tok = [] then rest else tok :: rest

/-- Split at blanks; a comma is a token of its own. `tok` is the token being read. -/
def tokenize (tok : List Char) : List Char → List (List Char)
  | [] => emitToken tok []
  | c :: cs =>
    if isBlank c then emitToken tok (tokenize [] cs)
    else if c = ',' then emitToken tok ([','] :: tokenize [] cs)
    else tokenize (tok ++ [c]) cs

/-- The value of a digit in the base, if it is one. -/
def digitValue (base : Nat) (c : Char) : Option Nat :=
  let n := c.toNat
  let d :=
    if 48 ≤ n && n ≤ 57 then some (n - 48)
    else if 97 ≤ n && n ≤ 102 then some (n - 87)
    else if 65 ≤ n && n ≤ 70 then some (n - 55)
    else none
  match d with
  | some d => if d < base then some d else none
  | none => none

/-- The number spelled by the digits, after `acc` for those read so far. -/
def numeralFrom (base acc : Nat) : List Char → Option Nat
  | [] => some acc
  | c :: cs =>
    match digitValue base c with
    | some d => numeralFrom base (acc * base + d) cs
    | none => none

/-- A number of at least one digit. -/
def numeral (base : Nat) (cs : List Char) : Option Nat := if cs = [] then none else numeralFrom base 0 cs

/-- A duty literal: decimal, or hexadecimal after `0x` (rule R59). -/
def dutyLiteral : List Char → Option Nat
  | '0' :: 'x' :: cs => numeral 16 cs
  | cs => numeral 10 cs

/-- Commands for a duty literal that fits in `N` bits; else the refusal (rule R59). -/
def withDuty (N : Nat) (tok : List Char) (f : Nat → List Instr) : AsmResult :=
  match dutyLiteral tok with
  | some v => if v < 2 ^ N then .commands (f v) else .refused .dutyOutOfRange
  | none => .refused .unknownLine

/-- Commands for a repetition count, a non-negative decimal literal (rule R60). -/
def withCount (tok : List Char) (f : Nat → AsmResult) : AsmResult :=
  match numeral 10 tok with
  | some k => f k
  | none => .refused .unknownLine

/-- The tokens of one line as commands (rules R59, R60); a line with none gives none. -/
def assembleTokens (N : Nat) : List (List Char) → AsmResult
  | [] => .commands []
  | [m] =>
    if m = ['T', 'I', 'C', 'K'] then .commands [.tick]
    else if m = ['S', 'A', 'M', 'P', 'L', 'E'] then .commands [.sample]
    else if m = ['S', 'T', 'E', 'P'] then .commands (expand .step)
    else .refused .unknownLine
  | [m, a] =>
    if m = ['S', 'E', 'T'] then withDuty N a fun v => [.set v]
    else if m = ['T', 'I', 'C', 'K', 'S'] then withCount a fun k => .commands (expand (.ticks k))
    else if m = ['S', 'E', 'T', 'T', 'L', 'E'] then withCount a fun k => .commands (expand (.settle k))
    else if m = ['M', 'E', 'A', 'S', 'U', 'R', 'E'] then withCount a fun k => .commands (expand (.measure k))
    else .refused .unknownLine
  | [m, a, c1, b, c2, c] =>
    if m = ['T', 'E', 'S', 'T', 'V', 'E', 'C'] ∧ c1 = [','] ∧ c2 = [','] then
      withCount b fun s => withCount c fun k => withDuty N a fun v => expand (.testvec v s k)
    else .refused .unknownLine
  | _ => .refused .unknownLine

/-- One line of assembler text. -/
def assembleLine (N : Nat) (line : List Char) : AsmResult := assembleTokens N (tokenize [] (stripComment line))

/-- A text of lines, refused at its first refused line. -/
def assemble (N : Nat) : List (List Char) → AsmResult
  | [] => .commands []
  | l :: ls =>
    match assembleLine N l with
    | .refused e => .refused e
    | .commands is =>
      match assemble N ls with
      | .refused e => .refused e
      | .commands js => .commands (is ++ js)

end Sys2Proof.Machine
end

