-- ==== Sys2Proof/Machine/Time.lean ====
section
/-! DEFINITION. Simulated time, "for diagnostic timestamps only, not for correctness logic": no meaning
of a command reads it (rules R95, R111). The clock frequency is an argument (rule R12). -/

namespace Sys2Proof.Machine

/-- The clock source's "current simulated time" in seconds: `edges / F_CLK` (rule R95). -/
def simulatedTime (fclkHz : ℚ) (s : State) : ℚ := s.edges / fclkHz

/-- The time a command takes: one clock period for `TICK`, none for `SET` and `SAMPLE` (rule R111). -/
def commandTime (fclkHz : ℚ) : Instr → ℚ
  | .tick => 1 / fclkHz
  | .set _ => 0
  | .sample => 0

end Sys2Proof.Machine
end

