-- ==== Sys2Proof/Machine/Verifier.lean ====
section
/-! DEFINITION. The host program: the Duty-Cycle Verifier of rules R87 to R94. It is no part of the
block (rule R5); it issues commands to it and judges the samples. -/

namespace Sys2Proof.Machine

/-- The verifier's parameters (rules R12, R87; decisions D17, D23). -/
structure VerifierParams where
  settleCycles   : Nat
  measureCycles  : Nat
  measure_pos    : 1 ≤ measureCycles
  tolerance      : ℚ
  tolerance_nonneg : 0 ≤ tolerance
deriving DecidableEq, Repr

/-- The verifier's own state for a vector (rule R88). -/
inductive VerifierPhase where
  | idle
  | settling (remaining : Nat)
  | measuring (remaining accumulatedCount : Nat)
deriving DecidableEq, Repr

/-- The verifier's diagnostics, exactly two, both non-fatal (rules R91, R92). -/
inductive Diagnostic where
  /-- One measured sample was X; reported per sample (rule R91). -/
  | undefinedOutputError
  /-- Reported per vector, with both values (rule R92). -/
  | toleranceViolation (observed expected : ℚ)
deriving DecidableEq, Repr

/-- The output for a vector: "a pass/fail signal per test vector plus the measured value", and its
diagnostics (rule R92). -/
structure VectorReport where
  duty        : Nat
  observed    : ℚ
  passed      : Bool
  diagnostics : List Diagnostic
deriving DecidableEq, Repr

/-- How many of the samples are 1; an X does not count (rule R89). -/
def ones : List Tri → Nat
  | [] => 0
  | r :: rs => (if r = .one then 1 else 0) + ones rs

/-- How many of the samples are X (rule R91). -/
def undefinedSamples : List Tri → Nat
  | [] => 0
  | r :: rs => (if r = .x then 1 else 0) + undefinedSamples rs

/-- `ObservedRatio = ones / MeasureCycles`, exact (rule R89). -/
def observedRatio (count measureCycles : Nat) : ℚ := count / measureCycles

/-- `ExpectedRatio = v / 2^N`, exact (rule R90). -/
def expectedRatio (N v : Nat) : ℚ := v / 2 ^ N

/-- A ToleranceViolation: the difference is more than Tolerance; an equal one passes (rule R90). -/
def violatesTolerance (tolerance observed expected : ℚ) : Bool :=
  decide (tolerance < |observed - expected|)

/-- The report on a vector from its count of 1s and its count of undefined samples: one
UndefinedOutputError for each of these, and a ToleranceViolation if there is one; the vector fails
if there is any (rules R90 to R92, conflict C4). -/
def judge (p : VerifierParams) (N v count undef : Nat) : VectorReport :=
  let o := observedRatio count p.measureCycles
  let e := expectedRatio N v
  let bad := violatesTolerance p.tolerance o e
  { duty := v
    observed := o
    passed := decide (undef = 0) && !bad
    diagnostics := List.replicate undef .undefinedOutputError ++ (if bad then [.toleranceViolation o e] else []) }

/-- The verifier at work: its inputs still to come, the vector in hand, its phase, the undefined
samples of the window so far, and the reports made, oldest first (rules R87, R88, R91, R93). -/
structure Verifier where
  params  : VerifierParams
  todo    : List Nat
  duty    : Nat
  phase   : VerifierPhase
  undef   : Nat
  reports : List VectorReport
deriving DecidableEq, Repr

/-- The commands the verifier issues now: only SET, TICK and SAMPLE, so that it writes only `value` and
reads only `led` (rules R88, R94). -/
def issue (h : Verifier) : List Instr :=
  match h.phase with
  | .idle =>
    match h.todo with
    | [] => []
    | v :: _ => [.set v]
  | .settling (_ + 1) => [.tick]
  | .settling 0 => []
  | .measuring (_ + 1) _ => stepCommands
  | .measuring 0 _ => []

/-- What the verifier makes of the samples those commands gave. No vector begins before the window of
the previous one is complete, and no diagnostic stops the sweep (rules R88, R91, R93). -/
def digest (N : Nat) (h : Verifier) (samples : List Tri) : Verifier :=
  match h.phase with
  | .idle =>
    match h.todo with
    | [] => h
    | v :: rest => { h with todo := rest, duty := v, phase := .settling h.params.settleCycles, undef := 0 }
  | .settling (k + 1) => { h with phase := .settling k }
  | .settling 0 => { h with phase := .measuring h.params.measureCycles 0 }
  | .measuring (k + 1) a =>
    { h with phase := .measuring k (a + ones samples), undef := h.undef + undefinedSamples samples }
  | .measuring 0 a =>
    { h with phase := .idle, reports := h.reports ++ [judge h.params N h.duty a h.undef] }

/-- The two agents on one clock: the block and the host (rule R86). -/
structure Bench where
  host  : Verifier
  block : State
deriving DecidableEq, Repr

/-- The samples that `t` holds beyond those of `s`. -/
def newSamples (s t : State) : List Tri := t.trace.drop s.trace.length

/-- One turn of the verifier: it issues its commands, the block runs them, it digests the samples. A
refused command ends the bench. -/
def benchStep (b : Bench) : Host.Outcome Bench Fault Refusal :=
  match execAll (issue b.host) b.block with
  | .next t => .next ⟨digest b.block.N b.host (newSamples b.block t), t⟩
  | .fault f => .fault f
  | .refused r => .refused r

/-- `k` turns of the verifier. -/
def benchRun : Nat → Bench → Host.Outcome Bench Fault Refusal
  | 0, b => .next b
  | k + 1, b =>
    match benchStep b with
    | .next c => benchRun k c
    | .fault f => .fault f
    | .refused r => .refused r

/-- How many turns one vector takes: to set, to settle, to begin measuring, to measure, to report. -/
def turnsPerVector (p : VerifierParams) : Nat := p.settleCycles + p.measureCycles + 3

/-- The clear form of one vector: run `TESTVEC v, SettleCycles, MeasureCycles`; the last MeasureCycles
samples are the window (rule R88). -/
def testVector (p : VerifierParams) (v : Nat) (s : State) : Host.Outcome (VectorReport × State) Fault Refusal :=
  match execAll (testvecCommands v p.settleCycles p.measureCycles) s with
  | .next t => .next (judge p s.N v (ones (newSamples s t)) (undefinedSamples (newSamples s t)), t)
  | .fault f => .fault f
  | .refused r => .refused r

/-- The clear form of the sweep: the vectors strictly in sequence, the counter never reset between
them, every vector run whatever the reports say (rules R91, R93). -/
def sweep (p : VerifierParams) : List Nat → State → Host.Outcome (List VectorReport × State) Fault Refusal
  | [], s => .next ([], s)
  | v :: vs, s =>
    match testVector p v s with
    | .next (r, t) =>
      match sweep p vs t with
      | .next (rs, u) => .next (r :: rs, u)
      | .fault f => .fault f
      | .refused r' => .refused r'
    | .fault f => .fault f
    | .refused r' => .refused r'

end Sys2Proof.Machine
end

