-- ==== Sys2Proof/Machine/WideCounter.lean ====
section
/-! DEFINITION. The block with a counter of any width `W ≥ N`, which the document allows: "but the
comparison must be taken modulo 2^N". The spec fixes `W = N` and says that no other choice shows
at `led` (rule R10, decision D3); this is the other design, to compare with. -/

namespace Sys2Proof.Machine

/-- The block's two fields with a `W`-bit counter; the duty value as a number. -/
structure WideBlock (W : Nat) where
  cnt   : BitVec W
  value : Option Nat
deriving DecidableEq, Repr

/-- Its power-on state (rules R102, R103). -/
def widePowerOn (W : Nat) : WideBlock W := ⟨BitVec.ofNat W Config.cntReset, none⟩

/-- The effect of a command on it (rules R63, R66, R77). -/
def wideExec {W : Nat} (i : Instr) (b : WideBlock W) : WideBlock W :=
  match i with
  | .tick => { b with cnt := nextCnt b.cnt }
  | .set v => { b with value := some v }
  | .sample => b

/-- The effect of a list of commands on it. -/
def wideExecAll {W : Nat} : List Instr → WideBlock W → WideBlock W
  | [], b => b
  | i :: is, b => wideExecAll is (wideExec i b)

/-- Its output, the comparison taken modulo `2^N` (rule R10). -/
def wideLed {W : Nat} (N : Nat) (b : WideBlock W) : Option Bit :=
  match b.value with
  | some v => some (bit (decide (b.cnt.toNat % 2 ^ N < v)))
  | none => none

end Sys2Proof.Machine
end

