-- ==== Sys2Proof/Safety.lean ====
section
/-! DEFINITION. The terms that claims use: when a sample is defined, what a run keeps, and how many
ones a window of samples holds. -/

namespace Sys2Proof.Machine

/-- The host has driven `value` and given at least one edge, so a sample is defined (rules R71,
R106). -/
def Ready (s : State) : Prop := 1 ≤ s.edges ∧ s.value.isSome

/-- The counter phase is the number of edges since power-on modulo `2^N` (rule R68). -/
def CountsEdges (s : State) : Prop := s.cnt.toNat = s.edges % 2 ^ s.N

/-- Every X in the trace came from a draw: X "is never a value the block computes" (rule R16). -/
def XOnlyDrawn (s : State) : Prop := undefinedSamples s.trace ≤ s.draws

/-- The bits of the window of the next `m` edges from phase `c0` under duty `v`: the sample after edge
`j` compares the phase `(c0 + j) mod 2^N` with `v`, for `j` in `1..m` (rules R70, R75). -/
def windowBits (N c0 v : Nat) : Nat → List Tri
  | 0 => []
  | m + 1 => windowBits N c0 v m ++ [triOfBit (bit (decide ((c0 + (m + 1)) % 2 ^ N < v)))]

/-- `#{ j ∈ 1..r : (c0 + j) mod 2^N < v }` (rule R75). -/
def phaseHits (N c0 v : Nat) : Nat → Nat
  | 0 => 0
  | r + 1 => phaseHits N c0 v r + (if (c0 + (r + 1)) % 2 ^ N < v then 1 else 0)

/-- The number of reserved words among the `N + 2`-bit words below `k`. -/
def reservedBelow (N : Nat) : Nat → Nat
  | 0 => 0
  | k + 1 => reservedBelow N k + (match decode N ⟨N + 2, BitVec.ofNat (N + 2) k⟩ with
      | .command _ => 0
      | .invalid _ => 1)

/-- How many of the commands are clock edges. -/
def tickCount : List Instr → Nat
  | [] => 0
  | i :: is => (if i = .tick then 1 else 0) + tickCount is

/-- How many of the commands are samples. -/
def sampleCount : List Instr → Nat
  | [] => 0
  | i :: is => (if i = .sample then 1 else 0) + sampleCount is

/-- The commands the verifier issues over `k` turns (rule R88). -/
def benchIssued : Nat → Bench → List Instr
  | 0, _ => []
  | k + 1, b => issue b.host ++ (match benchStep b with
      | .next c => benchIssued k c
      | .fault _ => []
      | .refused _ => [])

/-- No command of the list drives `value`. -/
def NoSet (is : List Instr) : Prop := ∀ v, Instr.set v ∉ is

end Sys2Proof.Machine
end

