-- ==== Sys2Proof/Certificates/Slice0/Obligations.lean ====
section
/-! DEFINITION. The statements about the PWM Core. Each holds for every width `N ≥ 1` (the field `N` of
the state) unless it names one. A docstring names the rule or the decision it formalises; "derived"
says that the spec marks that sentence as derived or as its own decision, or that it rests on a
choice of the model. -/

open Sys2Proof Sys2Proof.Machine

/-! ## Power-on -/

/-- R102: at power-on `cnt = 0`, at every width. -/
def Obligations.PowerOnCounterIsZero : Prop :=
  (∀ N h, (State.powerOn N h).cnt = 0) ∧ State.reset.cnt = 0

/-- Derived: R38, R103 (decision D7), R105; the width 4 of the reset state is the reference value (D21,
log 1), and the empty stream, the absent mark and draw 0 are the model's choices (log 4, 6, 7). -/
def Obligations.PowerOnState : Prop :=
  (∀ N h, State.powerOn N h =
    { N := N, N_pos := h, cnt := 0, value := none, edges := 0, trace := [], stream := [], mark := none, draws := 0 }) ∧
  State.reset.N = 4 ∧ State.reset = State.powerOn State.reset.N State.reset.N_pos

/-- R101: a run starts in the power-on state, and no command returns it there: neither a command nor a
step of a stream ends in the power-on state of any width. -/
def Obligations.NoCommandReturnsToPowerOn : Prop :=
  (∃ N h, State.reset = State.powerOn N h) ∧
  (∀ i s t N h, exec i s = .next t → t ≠ State.powerOn N h) ∧
  (∀ s t N h, step s = .next t → t ≠ State.powerOn N h)

/-! ## The clock edge -/

/-- Derived: R66, whose width and increment are decisions D3 and D4. `TICK` completes in every state
and changes only `cnt` and `edges`. -/
def Obligations.TickResult : Prop :=
  ∀ s : State,
    exec .tick s = .next { s with cnt := s.cnt + BitVec.ofNat s.N 1, edges := s.edges + 1 } ∧
    (s.cnt + BitVec.ofNat s.N 1).toNat = (s.cnt.toNat + 1) % 2 ^ s.N

/-- R67: at `cnt = 2^N − 1` the edge writes `cnt = 0`, and nothing records the wrap: the next state
differs in `cnt` and the edge count alone, as after any other edge. -/
def Obligations.TickWrapsAtTop : Prop :=
  ∀ s : State, s.cnt.toNat = 2 ^ s.N - 1 →
    exec .tick s = .next { s with cnt := 0, edges := s.edges + 1 }

/-- R69: `TICK` does not read `value`; what it writes is the same whatever `value` holds. -/
def Obligations.TickIgnoresValue : Prop :=
  ∀ s : State, ∃ c e, ∀ x : Option (BitVec s.N),
    exec .tick { s with value := x } = .next { s with value := x, cnt := c, edges := e }

/-- R31: the next value of `cnt` is one function of its present value alone, whatever the command
stream, `value` or anything else; every command but `TICK` leaves it. -/
def Obligations.NextCounterIsFunctionOfCounter : Prop :=
  ∃ f : (N : Nat) → BitVec N → BitVec N, ∀ i s t, exec i s = .next t →
    t.N = s.N ∧ t.cnt.toNat = if i = .tick then (f s.N s.cnt).toNat else s.cnt.toNat

/-- Derived: R68. After `k` more edges the counter is back exactly when `2^N` divides `k`, and it takes
every phase exactly once in any `2^N` consecutive edges. -/
def Obligations.CounterVisitsEveryPhaseOnce : Prop :=
  (∀ (s : State) k, ∃ t, execAll (ticksCommands k) s = .next t ∧
    t.cnt.toNat = (s.cnt.toNat + k) % 2 ^ s.N ∧ (t.cnt.toNat = s.cnt.toNat ↔ 2 ^ s.N ∣ k)) ∧
  (∀ (s : State) c, c < 2 ^ s.N → ∃! k, k < 2 ^ s.N ∧
    ∃ t, execAll (ticksCommands (k + 1)) s = .next t ∧ t.cnt.toNat = c)

/-! ## The value register -/

/-- Derived: R63, with R43 (decision D10) and R64 (decision D6). For every duty value of the width,
`SET v` completes in every state, writes all of `value`, changes nothing else, and shows at `led` at
once. -/
def Obligations.SetResult : Prop :=
  ∀ (s : State) v, v < 2 ^ s.N →
    exec (.set v) s = .next { s with value := some (BitVec.ofNat s.N v) } ∧
    (BitVec.ofNat s.N v).toNat = v ∧
    led { s with value := some (BitVec.ofNat s.N v) } = some (if s.cnt.toNat < v then .one else .zero)

/-- Derived: R59 says an out-of-range duty value is refused and not truncated; that `exec` refuses it
too is the model's choice (log 8). -/
def Obligations.SetRefusesOutOfRange : Prop :=
  ∀ (s : State) v, 2 ^ s.N ≤ v → exec (.set v) s = .refused .dutyOutOfRange

/-- R33: `value` keeps what it holds through any number of edges and samples until the next `SET`. -/
def Obligations.ValueIsHeldUntilNextSet : Prop :=
  (∀ is (s : State), NoSet is →
    ∃ t, execAll is s = .next t ∧ t.value.map BitVec.toNat = s.value.map BitVec.toNat) ∧
  (∀ v is (s : State), v < 2 ^ s.N → NoSet is →
    ∃ t, execAll (.set v :: is) s = .next t ∧ t.value.map BitVec.toNat = some v)

/-- Derived: R45 and R65. Of several `SET`s with no edge between only the last matters; a `SET` of what
`value` holds changes nothing; none moves `cnt`. -/
def Obligations.OnlyLastSetMatters : Prop :=
  (∀ (s : State) u v, u < 2 ^ s.N → v < 2 ^ s.N → execAll [.set u, .set v] s = exec (.set v) s) ∧
  (∀ (s : State) v, s.value = some v → exec (.set v.toNat) s = .next s) ∧
  (∀ (s t : State) v, exec (.set v) s = .next t → t.cnt.toNat = s.cnt.toNat)

/-- Derived: R81. `SET` and `TICK` in either order leave the same state; a sample after both sees the
new value either way, and a sample between them sees the old one. -/
def Obligations.SetAndTickCommute : Prop :=
  ∀ (s : State) v, v < 2 ^ s.N →
    (∃ t, execAll [.set v, .tick] s = .next t ∧ execAll [.tick, .set v] s = .next t ∧
      execAll [.set v, .tick, .sample] s =
        .next { t with trace := s.trace ++ [if t.cnt.toNat < v then .one else .zero] } ∧
      execAll [.tick, .set v, .sample] s =
        .next { t with trace := s.trace ++ [if t.cnt.toNat < v then .one else .zero] } ∧
      ∀ w, s.value = some w →
        execAll [.tick, .sample, .set v] s =
          .next { t with trace := s.trace ++ [if t.cnt.toNat < w.toNat then .one else .zero] })

/-! ## The output -/

/-- Derived: R70 (decision D5). `led` is strict unsigned less-than of the present `cnt` against the
present `value`, with no saturating case, and depends on nothing else. -/
def Obligations.ComparatorIsStrictLess : Prop :=
  (∀ s : State, s.value = none → led s = none) ∧
  (∀ (s : State) v, s.value = some v →
    led s = some (if s.cnt.toNat < v.toNat then .one else .zero)) ∧
  (∀ s t : State, s.N = t.N → s.cnt.toNat = t.cnt.toNat →
    s.value.map BitVec.toNat = t.value.map BitVec.toNat → led s = led t)

/-- Derived: R71 (decisions D5 to D8). After an edge and with a driven `value`, `SAMPLE` completes,
appends the comparator's bit and changes nothing else. -/
def Obligations.SampleDefinedResult : Prop :=
  ∀ (s : State) v, 1 ≤ s.edges → s.value = some v →
    exec .sample s = .next { s with trace := s.trace ++ [if s.cnt.toNat < v.toNat then .one else .zero] }

/-- Derived: R71 (decisions D7, D8), R104, R109. Before the first edge, or with `value` undriven,
`SAMPLE` completes and appends a free value; a second such sample appends the next free value. The
index of the free value is the model's own (log 7). -/
def Obligations.SampleDrawResult : Prop :=
  ∀ s : State, (s.edges = 0 ∨ s.value = none) →
    exec .sample s =
      .next { s with trace := s.trace ++ [Config.freeTri s.draws], draws := s.draws + 1 } ∧
    execAll [.sample, .sample] s =
      .next { s with
        trace := s.trace ++ [Config.freeTri s.draws, Config.freeTri (s.draws + 1)]
        draws := s.draws + 2 }

/-- R44, R77: `SAMPLE` writes the trace and nothing of the block, nor `edges` (`draws` is the model's own
index, log 7); two samples with no command between return the same defined result. -/
def Obligations.SampleHasNoSideEffect : Prop :=
  (∀ s : State, ∃ r d, exec .sample s = .next { s with trace := s.trace ++ [r], draws := d }) ∧
  (∀ s t : State, exec .sample s = .next t → led t = led s) ∧
  (∀ s : State, Ready s → ∃ r, execAll [.sample, .sample] s = .next { s with trace := s.trace ++ [r, r] })

/-- R48: a sample that follows an edge sees the state after that edge's update: in `TICK; SAMPLE` it
compares the incremented `cnt`. -/
def Obligations.SampleSeesTheEdgesUpdate : Prop :=
  ∀ (s : State) v, s.value = some v → ∃ t, exec .tick s = .next t ∧
    t.cnt.toNat = (s.cnt.toNat + 1) % 2 ^ s.N ∧
    execAll [.tick, .sample] s =
      .next { t with trace := s.trace ++ [if t.cnt.toNat < v.toNat then .one else .zero] }

/-- R72: with `value = some 0` every defined sample is 0, whatever the phase, and so is every later one
until the next `SET`. -/
def Obligations.DutyZeroIsAlwaysLow : Prop :=
  (∀ s : State, 1 ≤ s.edges → s.value = some 0 →
    exec .sample s = .next { s with trace := s.trace ++ [.zero] }) ∧
  (∀ is (s : State), NoSet is → 1 ≤ s.edges → s.value = some 0 →
    ∃ t l, execAll is s = .next t ∧ t.trace = s.trace ++ l ∧ ∀ r ∈ l, r = .zero)

/-- Derived: R73 (decision D5). With `value = some (2^N − 1)` a defined sample is 0 exactly at
`cnt = 2^N − 1`, and `2^N − 1` of the `2^N` samples of a period are 1. -/
def Obligations.LargestDutyMissesOnePhase : Prop :=
  ∀ (s : State) v, s.value = some v → v.toNat = 2 ^ s.N - 1 →
    (1 ≤ s.edges → exec .sample s =
      .next { s with trace := s.trace ++ [if s.cnt.toNat = 2 ^ s.N - 1 then .zero else .one] }) ∧
    (∃ t l, execAll (measureCommands (2 ^ s.N)) s = .next t ∧ t.trace = s.trace ++ l ∧
      l.length = 2 ^ s.N ∧ ones l = 2 ^ s.N - 1)

/-! ## The whole machine -/

/-- R78: each of `TICK`, `SET` and `SAMPLE` completes in every state, and so does every list of them. -/
def Obligations.EveryCommandCompletes : Prop :=
  (∀ i (s : State), WellFormed s.N i → ∃ t, exec i s = .next t) ∧
  (∀ is (s : State), AllWellFormed s.N is → ∃ t, execAll is s = .next t)

/-- Derived: R34, with R95 (decision D18). The edge count is 0 at power-on, each `TICK` adds 1, nothing
else changes it, and the comparator does not read it. -/
def Obligations.EdgesCountTicks : Prop :=
  (∀ N h, (State.powerOn N h).edges = 0) ∧
  (∀ is s t, execAll is s = .next t → t.edges = s.edges + tickCount is) ∧
  (∀ s t, step s = .next t → t.edges = s.edges ∨ t.edges = s.edges + 1) ∧
  (∀ (s : State) e, led { s with edges := e } = led s)

/-- R35: the trace is empty at power-on, each `SAMPLE` appends exactly one result, nothing else changes
it, and the block never reads it. -/
def Obligations.TraceGrowsOnlyAtSample : Prop :=
  (∀ N h, (State.powerOn N h).trace = []) ∧
  (∀ i s t, exec i s = .next t → ∃ l, t.trace = s.trace ++ l ∧ l.length = (if i = .sample then 1 else 0) ∧
    ∀ l', exec i { s with trace := l' } = .next { t with trace := l' ++ l })

/-- Derived: R36. Two runs at the same phase, width and driven value, each past its first edge, return
the same samples from there on under the same commands, whatever came before. -/
def Obligations.PhaseAloneDeterminesSamples : Prop :=
  ∀ is (s t : State), s.N = t.N → s.cnt.toNat = t.cnt.toNat →
    s.value.map BitVec.toNat = t.value.map BitVec.toNat → Ready s → Ready t → AllWellFormed s.N is →
    ∃ s' t' l, execAll is s = .next s' ∧ execAll is t = .next t' ∧
      s'.trace = s.trace ++ l ∧ t'.trace = t.trace ++ l

/-- Derived: R106 (decision D19), R104. Any commands that hold both a `SET` and a `TICK`, in either order
and from any state, leave a state where a sample is a defined bit. -/
def Obligations.BootMakesSamplesDefined : Prop :=
  ∀ is (s : State) v, AllWellFormed s.N is → .tick ∈ is → .set v ∈ is →
    ∃ t, execAll is s = .next t ∧ Ready t ∧
      ∃ b, exec .sample t = .next { t with trace := t.trace ++ [triOfBit b] }

/-- Derived: R71 ("must never be undefined thereafter"). Once a sample is defined, it stays defined after
every step, and no X is appended. -/
def Obligations.DefinednessIsKept : Prop :=
  ∀ s t, Ready s → step s = .next t →
    Ready t ∧ t.draws = s.draws ∧ undefinedSamples t.trace = undefinedSamples s.trace

/-- Derived: R68. The phase is the number of edges modulo `2^N`, and every step keeps it so. -/
def Obligations.PhaseCountsEdgesIsKept : Prop :=
  ∀ s t, CountsEdges s → step s = .next t → CountsEdges t

/-- Derived: R16, with the model's draw index (log 7). Every X of the trace came from a draw, and every
step keeps it so. -/
def Obligations.UndefinedSamplesAreDraws : Prop :=
  ∀ s t, XOnlyDrawn s → step s = .next t → XOnlyDrawn t

/-- Derived: R68 at 0 edges, R38. Both invariants hold at power-on, at every width. -/
def Obligations.InvariantsHoldAtPowerOn : Prop :=
  ∀ N h, CountsEdges (State.powerOn N h) ∧ XOnlyDrawn (State.powerOn N h)

/-! ## Steps and streams -/

/-- Derived: R47, R61 (decisions D1, D16); the stream's place in the state is log 3. When the next word
spells a command, a step is that command's effect on the state with the word taken off. -/
def Obligations.StepRunsDecodedCommand : Prop :=
  ∀ (s : State) w rest i, s.mark = none → s.stream = w :: rest → decode s.N w = .command i →
    step s = exec i { s with stream := rest }

/-- Derived: R55, R56 (decision D14), R107 (decision D20). A reserved or malformed word is refused, a
marked run takes no further step, and the run ends with the stream (log 5, 6). -/
def Obligations.StepStopsByName : Prop :=
  (∀ (s : State) w rest why, s.mark = none → s.stream = w :: rest → decode s.N w = .invalid why →
    step s = .refused (.reservedCommand why)) ∧
  (∀ (s : State) r, s.mark = some r → step s = .refused r) ∧
  (∀ s : State, s.mark = none → s.stream = [] → step s = .refused .streamEnded)

/-- Derived: R55 (decision D14). A reserved word changes nothing but the mark, which is kept however long
the run is observed (log 6). -/
def Obligations.RefusalMarkIsKept : Prop :=
  ∀ (s : State) w rest why k, s.mark = none → s.stream = w :: rest → decode s.N w = .invalid why →
    s.runFor (k + 1) = { s with mark := some (.reservedCommand why) }

/-- Derived: R17, R47, R58; the fields are the model's (log 1, 3, 6). A step that answers a next state
started unmarked, took exactly the next word off the stream, and left the width and the mark. -/
def Obligations.StepFrame : Prop :=
  ∀ s t, step s = .next t →
    s.mark = none ∧ t.mark = none ∧ t.N = s.N ∧ ∃ w, s.stream = w :: t.stream

/-- Derived: R47, R61 (decision D16). The words of a list of commands, at the head of the stream, run in
list order, each exactly once, each on what all before it left. -/
def Obligations.StreamRunsCommandsInOrder : Prop :=
  ∀ is (s : State) rest, AllWellFormed s.N is → s.mark = none → s.stream = wordsOf s.N is ++ rest →
    Host.Core.run Sys2Proof.core is.length s = execAll is { s with stream := rest } ∧
    ∃ t, execAll is { s with stream := rest } = .next t ∧ t.stream = rest

/-- Derived: the model's choice (log 4, 9). The command that the decoder reads from a container is the one
that the very next step runs. Which word a container stands for, be it wider or narrower than a
command word or not whole bytes, is that choice, not rule R56. -/
def Obligations.FetchWordRunsNext : Prop :=
  (∀ (s : State) nbits w i, decode s.N (containerWord s.N nbits w) = .command i →
    step (s.withFetchWord nbits w) = exec i { s with stream := s.stream.tail, mark := none }) ∧
  (∀ nbits w i, decodeTableWord nbits w = some i →
    step (State.reset.withFetchWord nbits w) = exec i State.reset)

/-! ## The encoding -/

/-- Derived: R51 to R54 (decision D13). Decoding the word of a well-formed command gives it back, for
every width and every duty value. -/
def Obligations.DecodeOfEncode : Prop :=
  ∀ N i, WellFormed N i → (encode N i).width = N + 2 ∧ decode N (encode N i) = .command i

/-- Derived: R53, R54 (decision D13). A word that decodes to a command is the word of that command, and
the command is well formed: no two words spell one command. -/
def Obligations.EncodeOfDecode : Prop :=
  ∀ N w i, decode N w = .command i → WellFormed N i ∧ encode N i = w

/-- Derived: R52, R53, R55, R56 (decisions D13, D14). The verdict on every word, by its two fields; a word
of any other width is refused. -/
def Obligations.DecoderIsTotal : Prop :=
  (∀ N (w : BitVec (N + 2)), decode N ⟨N + 2, w⟩ =
    match w.toNat / 2 ^ N, w.toNat % 2 ^ N with
    | 0, 0 => .command .tick
    | 0, _ + 1 => .invalid .tickPayload
    | 1, v => .command (.set v)
    | 2, 0 => .command .sample
    | 2, _ + 1 => .invalid .samplePayload
    | _, _ => .invalid .opReserved) ∧
  (∀ N w, w.width ≠ N + 2 → decode N w = .invalid .wrongWidth)

/-- Derived: R53 (decision D13). The match and mask lines name exactly the words that decode to their
command, so no word matches two lines. -/
def Obligations.OpcodeRowsAgreeWithDecoder : Prop :=
  ∀ N w r, w < 2 ^ (N + 2) → r ∈ opcodeRows N →
    (r.hits w = true ↔ ∃ i, decode N ⟨N + 2, BitVec.ofNat (N + 2) w⟩ = .command i ∧ i.mnemonic = r.mnemonic)

/-- Derived: R55 (decision D14) and 95_test_vectors.md section 2.1: how many words are reserved. -/
def Obligations.ReservedWordCount : Prop :=
  ∀ N, reservedBelow N (2 ^ (N + 2)) = 2 * (2 ^ N - 1) + 2 ^ N

/-- Derived: 95_test_vectors.md section 2.1 (R51 to R56). Words written out from the encoding, at three
widths. -/
def Obligations.SpecWordsDecode : Prop :=
  decode 4 ⟨6, 0b000000#6⟩ = .command .tick ∧
  decode 4 ⟨6, 0b011000#6⟩ = .command (.set 8) ∧
  decode 4 ⟨6, 0b100000#6⟩ = .command .sample ∧
  decode 4 ⟨6, 0b100001#6⟩ = .invalid .samplePayload ∧
  decode 4 ⟨6, 0b110000#6⟩ = .invalid .opReserved ∧
  decode 4 ⟨7, 0b1000000#7⟩ = .invalid .wrongWidth ∧
  decode 1 ⟨3, 0b011#3⟩ = .command (.set 1) ∧
  decode 1 ⟨3, 0b001#3⟩ = .invalid .tickPayload ∧
  decode 8 ⟨10, 0b0111111111#10⟩ = .command (.set 255)

/-! ## Pseudo-instructions and the assembler -/

/-- Derived: R60 (decision D15). The expansions, and the words of `TESTVEC` as the words of `SET`, then
`s` words of `TICK`, then `m` pairs of the words of `TICK` and `SAMPLE`. -/
def Obligations.PseudoInstructionsExpand : Prop :=
  (∀ k, expand (.ticks k) = List.replicate k .tick ∧ expand (.settle k) = List.replicate k .tick) ∧
  expand .step = [.tick, .sample] ∧
  (∀ m, expand (.measure m) = (List.replicate m [Instr.tick, Instr.sample]).flatten) ∧
  (∀ N v s m, wordsOf N (expand (.testvec v s m)) =
    encode N (.set v) :: (List.replicate s (encode N .tick) ++
      (List.replicate m [encode N .tick, encode N .sample]).flatten))

/-- Derived: R59, R60 (decision D15). Whatever text the assembler accepts gives only commands of the
block, so every one of them completes; and a comment changes nothing. -/
def Obligations.AssembledCommandsAreWellFormed : Prop :=
  (∀ N ls is, assemble N ls = .commands is → AllWellFormed N is) ∧
  (∀ N l c, assembleLine N (l ++ ';' :: c) = assembleLine N l)

/-- Derived: R59 (decision D15). A duty literal that fits gives `SET`; one outside `0 .. 2^N − 1` is
refused, not truncated. -/
def Obligations.AssemblerRefusesOutOfRange : Prop :=
  ∀ N tok v, dutyLiteral tok = some v →
    (v < 2 ^ N → assembleTokens N [['S', 'E', 'T'], tok] = .commands [.set v]) ∧
    (2 ^ N ≤ v → assembleTokens N [['S', 'E', 'T'], tok] = .refused .dutyOutOfRange)

/-! ## Windows of samples -/

/-- Derived: R70, R71, R75. Under a held `value`, the window of the next `m` edges appends exactly the bit
of each phase `c0 + 1` to `c0 + m` modulo `2^N`, and moves nothing but the phase and the edge count. -/
def Obligations.WindowSamplesFollowThePhase : Prop :=
  ∀ (s : State) v m, s.value = some v → ∃ t, execAll (measureCommands m) s = .next t ∧
    t.trace = s.trace ++ windowBits s.N s.cnt.toNat v.toNat m ∧
    t.cnt.toNat = (s.cnt.toNat + m) % 2 ^ s.N ∧ t.edges = s.edges + m ∧
    t.N = s.N ∧ t.value.map BitVec.toNat = some v.toNat ∧
    t.stream = s.stream ∧ t.mark = s.mark ∧ t.draws = s.draws

/-- Derived: R75. The number of ones of a window of any length from any phase. -/
def Obligations.WindowCountFormula : Prop :=
  ∀ (s : State) v m, s.value = some v → ∃ t l, execAll (measureCommands m) s = .next t ∧
    t.trace = s.trace ++ l ∧ l.length = m ∧
    ones l = m / 2 ^ s.N * v.toNat + phaseHits s.N s.cnt.toNat v.toNat (m % 2 ^ s.N)

/-- Derived: R74. Over `2^N` consecutive edges exactly `v` samples are 1, from any phase. -/
def Obligations.FullPeriodIsExact : Prop :=
  ∀ (s : State) v, s.value = some v → ∃ t l, execAll (measureCommands (2 ^ s.N)) s = .next t ∧
    t.trace = s.trace ++ l ∧ l.length = 2 ^ s.N ∧ ones l = v.toNat

/-- Derived: R75. The ratio of a window of `m` edges is off the duty ratio by less than `2^N / m`. -/
def Obligations.WindowRatioBound : Prop :=
  ∀ (s : State) v m, s.value = some v → 1 ≤ m → ∃ t l, execAll (measureCommands m) s = .next t ∧
    t.trace = s.trace ++ l ∧ l.length = m ∧
    |observedRatio (ones l) m - expectedRatio s.N v.toNat| < 2 ^ s.N / m

/-- Derived: R76. A larger duty gives no fewer ones over the same window from the same phase. -/
def Obligations.WindowOnesAreMonotone : Prop :=
  ∀ (s t : State) v w m, s.N = t.N → s.cnt.toNat = t.cnt.toNat → s.value = some v → t.value = some w →
    v.toNat ≤ w.toNat →
    ∃ s' t' l k, execAll (measureCommands m) s = .next s' ∧ execAll (measureCommands m) t = .next t' ∧
      s'.trace = s.trace ++ l ∧ t'.trace = t.trace ++ k ∧ ones l ≤ ones k

/-- Derived: R10 (decision D3). From power-on, a counter of any width `W ≥ N`, compared modulo `2^N`, shows
the same `led` after every list of commands. -/
def Obligations.WiderCounterShowsTheSameLed : Prop :=
  ∀ N h W is, N ≤ W → AllWellFormed N is →
    ∃ t, execAll is (State.powerOn N h) = .next t ∧ led t = wideLed N (wideExecAll is (widePowerOn W))

/-! ## The verifier and time -/

/-- Derived: R89 (decision D17). The observed ratio is the exact share of ones; an X does not count. -/
def Obligations.ObservedRatioIsExact : Prop :=
  ∀ (p : VerifierParams) N v l undef,
    (judge p N v (ones l) undef).observed * p.measureCycles = l.count .one

/-- R90: `ExpectedRatio = v / 2^N`; a vector has a ToleranceViolation if and only if the ratios differ by
more than Tolerance, so that a difference equal to Tolerance passes. -/
def Obligations.ToleranceViolationIff : Prop :=
  ∀ (p : VerifierParams) N v count undef,
    (∃ o e, .toleranceViolation o e ∈ (judge p N v count undef).diagnostics) ↔
      p.tolerance < |(judge p N v count undef).observed - (v : ℚ) / 2 ^ N|

/-- R91: one UndefinedOutputError for each X of a measurement window, which fails the vector; samples of
the settle window are not examined; and the sweep goes on with the vectors still to come. -/
def Obligations.UndefinedSamplesAreReported : Prop :=
  (∀ (p : VerifierParams) N v count undef,
    (judge p N v count undef).diagnostics.count .undefinedOutputError = undef ∧
    (0 < undef → (judge p N v count undef).passed = false)) ∧
  (∀ N (h : Verifier) k a l, h.phase = .measuring (k + 1) a → (digest N h l).undef = h.undef + l.count .x) ∧
  (∀ N (h : Verifier) k l, h.phase = .settling k → (digest N h l).undef = h.undef) ∧
  (∀ N (h : Verifier) a l, h.phase = .measuring 0 a →
    (digest N h l).reports = h.reports ++ [judge h.params N h.duty a h.undef] ∧
    (digest N h l).phase = .idle ∧ (digest N h l).todo = h.todo)

/-- R88: for a test vector `v` the verifier issues `SET v`, then SettleCycles edges with no sample, then
MeasureCycles sampled edges. -/
def Obligations.VerifierIssuesTestvec : Prop :=
  ∀ (b : Bench) v rest, b.host.phase = .idle → b.host.todo = v :: rest → v < 2 ^ b.block.N →
    benchIssued (turnsPerVector b.host.params) b =
      .set v :: (List.replicate b.host.params.settleCycles .tick ++
        (List.replicate b.host.params.measureCycles [Instr.tick, Instr.sample]).flatten)

/-- Derived: R86, R88, R91, R93. The verifier, turn by turn against the block, makes the reports of the
clear sweep, one per vector in order, and leaves the block as the sweep does. -/
def Obligations.BenchRefinesSweep : Prop :=
  ∀ (b : Bench), b.host.phase = .idle → (∀ v ∈ b.host.todo, v < 2 ^ b.block.N) →
    ∃ rs t h, sweep b.host.params b.host.todo b.block = .next (rs, t) ∧
      benchRun (b.host.todo.length * turnsPerVector b.host.params) b = .next ⟨h, t⟩ ∧
      h.reports = b.host.reports ++ rs ∧ h.todo = [] ∧ h.phase = .idle ∧
      rs.map VectorReport.duty = b.host.todo

/-- Derived: R75, R88 to R93. With `2^N ≤ Tolerance · MeasureCycles`, every vector passes on this block,
with no diagnostic, from any phase. -/
def Obligations.SweepPasses : Prop :=
  ∀ (p : VerifierParams) vs (s : State), (∀ v ∈ vs, v < 2 ^ s.N) →
    (2 ^ s.N : ℚ) ≤ p.tolerance * p.measureCycles →
    ∃ rs t, sweep p vs s = .next (rs, t) ∧ rs.map VectorReport.duty = vs ∧
      ∀ r ∈ rs, r.passed = true ∧ r.diagnostics = []

/-- Derived: R95, R111 (decision D18). Simulated time starts at 0, each `TICK` adds one period, `SET` and
`SAMPLE` take none. -/
def Obligations.TimeAdvancesByEdges : Prop :=
  (∀ F N h, simulatedTime F (State.powerOn N h) = 0) ∧
  (∀ F i s t, exec i s = .next t → simulatedTime F t = simulatedTime F s + commandTime F i)
end

