-- ==== Sys2Proof/Laws/Decode.lean ====
section
/-! SUPPORT. The two fields of a command word, read and packed (rule R52). -/

namespace Sys2Proof

theorem opField_toNat (N : Nat) (w : BitVec (N + 2)) : (opField N w).toNat = w.toNat / 2 ^ N := by
  have h : w.toNat < 2 ^ 2 * 2 ^ N := by
    rw [← pow_add, Nat.add_comm 2 N]
    exact w.isLt
  rw [opField, BitVec.extractLsb'_toNat, Nat.shiftRight_eq_div_pow]
  apply Nat.mod_eq_of_lt
  exact (Nat.div_lt_iff_lt_mul (by positivity)).mpr h

theorem payloadField_toNat (N : Nat) (w : BitVec (N + 2)) : (payloadField N w).toNat = w.toNat % 2 ^ N := by
  simp [payloadField, BitVec.extractLsb'_toNat]

theorem packFields_toNat {N op payload : Nat} (ho : op < 4) (hp : payload < 2 ^ N) :
    (packFields N op payload).toNat = op * 2 ^ N + payload := by
  rw [packFields, BitVec.toNat_ofNat]
  apply Nat.mod_eq_of_lt
  have : (op + 1) * 2 ^ N ≤ 4 * 2 ^ N := Nat.mul_le_mul_right _ ho
  rw [pow_add]
  linarith

theorem opField_packFields {N op payload : Nat} (ho : op < 4) (hp : payload < 2 ^ N) :
    (opField N (packFields N op payload)).toNat = op := by
  rw [opField_toNat, packFields_toNat ho hp, mul_comm, Nat.mul_add_div (by positivity), Nat.div_eq_of_lt hp,
    add_zero]

theorem payloadField_packFields {N op payload : Nat} (ho : op < 4) (hp : payload < 2 ^ N) :
    (payloadField N (packFields N op payload)).toNat = payload := by
  rw [payloadField_toNat, packFields_toNat ho hp, mul_comm, Nat.mul_add_mod, Nat.mod_eq_of_lt hp]

/-- A word is its two fields, the payload below the op (rule R52). -/
theorem toNat_eq_fields (N : Nat) (w : BitVec (N + 2)) :
    w.toNat = (opField N w).toNat * 2 ^ N + (payloadField N w).toNat := by
  rw [opField_toNat, payloadField_toNat, mul_comm, Nat.div_add_mod]

/-- What the opcode map says of an op and a payload, as numbers (rule R53). -/
theorem decodeFields_cases (op : BitVec 2) (payload : Nat) :
    (op.toNat = 0 ∧ payload = 0 ∧ decodeFields op payload = .command .tick) ∨
    (op.toNat = 0 ∧ payload ≠ 0 ∧ decodeFields op payload = .invalid .tickPayload) ∨
    (op.toNat = 1 ∧ decodeFields op payload = .command (.set payload)) ∨
    (op.toNat = 2 ∧ payload = 0 ∧ decodeFields op payload = .command .sample) ∨
    (op.toNat = 2 ∧ payload ≠ 0 ∧ decodeFields op payload = .invalid .samplePayload) ∨
    (op.toNat = 3 ∧ decodeFields op payload = .invalid .opReserved) := by
  have h : op = 0 ∨ op = 1 ∨ op = 2 ∨ op = 3 := by
    revert op
    decide
  by_cases hp : payload = 0 <;> obtain rfl | rfl | rfl | rfl := h <;> simp [decodeFields, hp]

@[simp] theorem decode_ofBits (N : Nat) (w : BitVec (N + 2)) : decode N ⟨N + 2, w⟩ = decodeBits N w := by
  simp [decode]

theorem decode_wrongWidth {N : Nat} {w : Word} (h : w.width ≠ N + 2) : decode N w = .invalid .wrongWidth := by
  simp [decode, h]

end Sys2Proof
end

