-- ==== Sys2Proof/Laws/State.lean ====
section
/-! SUPPORT. One lemma per field per update of the state, so that no proof unfolds a record update. -/

namespace Sys2Proof.Machine

@[simp] theorem State.setCnt_N (s : State) (c : BitVec s.N) : (s.setCnt c).N = s.N := rfl
@[simp] theorem State.setCnt_cnt (s : State) (c : BitVec s.N) : (s.setCnt c).cnt = c := rfl
@[simp] theorem State.setCnt_value (s : State) (c : BitVec s.N) : (s.setCnt c).value = s.value := rfl
@[simp] theorem State.setCnt_edges (s : State) (c : BitVec s.N) : (s.setCnt c).edges = s.edges := rfl
@[simp] theorem State.setCnt_trace (s : State) (c : BitVec s.N) : (s.setCnt c).trace = s.trace := rfl
@[simp] theorem State.setCnt_stream (s : State) (c : BitVec s.N) : (s.setCnt c).stream = s.stream := rfl
@[simp] theorem State.setCnt_mark (s : State) (c : BitVec s.N) : (s.setCnt c).mark = s.mark := rfl
@[simp] theorem State.setCnt_draws (s : State) (c : BitVec s.N) : (s.setCnt c).draws = s.draws := rfl

@[simp] theorem State.setValue_N (s : State) (v : Option (BitVec s.N)) : (s.setValue v).N = s.N := rfl
@[simp] theorem State.setValue_cnt (s : State) (v : Option (BitVec s.N)) : (s.setValue v).cnt = s.cnt := rfl
@[simp] theorem State.setValue_value (s : State) (v : Option (BitVec s.N)) : (s.setValue v).value = v := rfl
@[simp] theorem State.setValue_edges (s : State) (v : Option (BitVec s.N)) : (s.setValue v).edges = s.edges := rfl
@[simp] theorem State.setValue_trace (s : State) (v : Option (BitVec s.N)) : (s.setValue v).trace = s.trace := rfl
@[simp] theorem State.setValue_stream (s : State) (v : Option (BitVec s.N)) : (s.setValue v).stream = s.stream := rfl
@[simp] theorem State.setValue_mark (s : State) (v : Option (BitVec s.N)) : (s.setValue v).mark = s.mark := rfl
@[simp] theorem State.setValue_draws (s : State) (v : Option (BitVec s.N)) : (s.setValue v).draws = s.draws := rfl

@[simp] theorem State.setEdges_N (s : State) (e : Nat) : (s.setEdges e).N = s.N := rfl
@[simp] theorem State.setEdges_cnt (s : State) (e : Nat) : (s.setEdges e).cnt = s.cnt := rfl
@[simp] theorem State.setEdges_value (s : State) (e : Nat) : (s.setEdges e).value = s.value := rfl
@[simp] theorem State.setEdges_edges (s : State) (e : Nat) : (s.setEdges e).edges = e := rfl
@[simp] theorem State.setEdges_trace (s : State) (e : Nat) : (s.setEdges e).trace = s.trace := rfl
@[simp] theorem State.setEdges_stream (s : State) (e : Nat) : (s.setEdges e).stream = s.stream := rfl
@[simp] theorem State.setEdges_mark (s : State) (e : Nat) : (s.setEdges e).mark = s.mark := rfl
@[simp] theorem State.setEdges_draws (s : State) (e : Nat) : (s.setEdges e).draws = s.draws := rfl

@[simp] theorem State.setTrace_N (s : State) (l : List Tri) : (s.setTrace l).N = s.N := rfl
@[simp] theorem State.setTrace_cnt (s : State) (l : List Tri) : (s.setTrace l).cnt = s.cnt := rfl
@[simp] theorem State.setTrace_value (s : State) (l : List Tri) : (s.setTrace l).value = s.value := rfl
@[simp] theorem State.setTrace_edges (s : State) (l : List Tri) : (s.setTrace l).edges = s.edges := rfl
@[simp] theorem State.setTrace_trace (s : State) (l : List Tri) : (s.setTrace l).trace = l := rfl
@[simp] theorem State.setTrace_stream (s : State) (l : List Tri) : (s.setTrace l).stream = s.stream := rfl
@[simp] theorem State.setTrace_mark (s : State) (l : List Tri) : (s.setTrace l).mark = s.mark := rfl
@[simp] theorem State.setTrace_draws (s : State) (l : List Tri) : (s.setTrace l).draws = s.draws := rfl

@[simp] theorem State.setStream_N (s : State) (ws : List Word) : (s.setStream ws).N = s.N := rfl
@[simp] theorem State.setStream_cnt (s : State) (ws : List Word) : (s.setStream ws).cnt = s.cnt := rfl
@[simp] theorem State.setStream_value (s : State) (ws : List Word) : (s.setStream ws).value = s.value := rfl
@[simp] theorem State.setStream_edges (s : State) (ws : List Word) : (s.setStream ws).edges = s.edges := rfl
@[simp] theorem State.setStream_trace (s : State) (ws : List Word) : (s.setStream ws).trace = s.trace := rfl
@[simp] theorem State.setStream_stream (s : State) (ws : List Word) : (s.setStream ws).stream = ws := rfl
@[simp] theorem State.setStream_mark (s : State) (ws : List Word) : (s.setStream ws).mark = s.mark := rfl
@[simp] theorem State.setStream_draws (s : State) (ws : List Word) : (s.setStream ws).draws = s.draws := rfl

@[simp] theorem State.setMark_N (s : State) (m : Option Refusal) : (s.setMark m).N = s.N := rfl
@[simp] theorem State.setMark_cnt (s : State) (m : Option Refusal) : (s.setMark m).cnt = s.cnt := rfl
@[simp] theorem State.setMark_value (s : State) (m : Option Refusal) : (s.setMark m).value = s.value := rfl
@[simp] theorem State.setMark_edges (s : State) (m : Option Refusal) : (s.setMark m).edges = s.edges := rfl
@[simp] theorem State.setMark_trace (s : State) (m : Option Refusal) : (s.setMark m).trace = s.trace := rfl
@[simp] theorem State.setMark_stream (s : State) (m : Option Refusal) : (s.setMark m).stream = s.stream := rfl
@[simp] theorem State.setMark_mark (s : State) (m : Option Refusal) : (s.setMark m).mark = m := rfl
@[simp] theorem State.setMark_draws (s : State) (m : Option Refusal) : (s.setMark m).draws = s.draws := rfl

@[simp] theorem State.setDraws_N (s : State) (d : Nat) : (s.setDraws d).N = s.N := rfl
@[simp] theorem State.setDraws_cnt (s : State) (d : Nat) : (s.setDraws d).cnt = s.cnt := rfl
@[simp] theorem State.setDraws_value (s : State) (d : Nat) : (s.setDraws d).value = s.value := rfl
@[simp] theorem State.setDraws_edges (s : State) (d : Nat) : (s.setDraws d).edges = s.edges := rfl
@[simp] theorem State.setDraws_trace (s : State) (d : Nat) : (s.setDraws d).trace = s.trace := rfl
@[simp] theorem State.setDraws_stream (s : State) (d : Nat) : (s.setDraws d).stream = s.stream := rfl
@[simp] theorem State.setDraws_mark (s : State) (d : Nat) : (s.setDraws d).mark = s.mark := rfl
@[simp] theorem State.setDraws_draws (s : State) (d : Nat) : (s.setDraws d).draws = d := rfl

/-- Two states of the same width agree when their fields do, the dependent ones as numbers. -/
theorem State.eq_of_fields {s t : State} (hN : s.N = t.N) (hc : s.cnt.toNat = t.cnt.toNat)
    (hv : s.value.map BitVec.toNat = t.value.map BitVec.toNat) (he : s.edges = t.edges)
    (ht : s.trace = t.trace) (hs : s.stream = t.stream) (hm : s.mark = t.mark) (hd : s.draws = t.draws) :
    s = t := by
  obtain ⟨N, hp, c, v, e, l, ws, m, d⟩ := s
  obtain ⟨N', hp', c', v', e', l', ws', m', d'⟩ := t
  obtain rfl : N = N' := hN
  obtain rfl : c = c' := BitVec.eq_of_toNat_eq hc
  obtain rfl : v = v' := Option.map_injective (fun _ _ => BitVec.eq_of_toNat_eq) hv
  obtain rfl : e = e' := he
  obtain rfl : l = l' := ht
  obtain rfl : ws = ws' := hs
  obtain rfl : m = m' := hm
  obtain rfl : d = d' := hd
  rfl

end Sys2Proof.Machine
end

