-- ==== Sys2Proof/Laws/Ops.lean ====
section
/-! SUPPORT. What each shared operation can do, said once. -/

namespace Sys2Proof.Machine

@[simp] theorem bit_true : bit true = .one := rfl
@[simp] theorem bit_false : bit false = .zero := rfl
@[simp] theorem triOfBit_zero : triOfBit .zero = .zero := rfl
@[simp] theorem triOfBit_one : triOfBit .one = .one := rfl

theorem triOfBit_ne_x (b : Bit) : triOfBit b ≠ .x := by
  cases b <;> decide

theorem triOfBit_compareLess {N : Nat} (c v : BitVec N) :
    triOfBit (compareLess c v) = if c.toNat < v.toNat then .one else .zero := by
  by_cases h : c.toNat < v.toNat <;> simp [compareLess, BitVec.ult, h]

theorem led_of_value {s : State} {v : BitVec s.N} (h : s.value = some v) :
    led s = some (compareLess s.cnt v) := by
  simp [led, outputOf, h]

theorem led_of_none {s : State} (h : s.value = none) : led s = none := by
  simp [led, outputOf, h]

/-- The comparator reads `cnt` and `value` alone (rule R70). -/
@[simp] theorem led_setEdges (s : State) (e : Nat) : led (s.setEdges e) = led s := rfl
@[simp] theorem led_setTrace (s : State) (l : List Tri) : led (s.setTrace l) = led s := rfl
@[simp] theorem led_setStream (s : State) (ws : List Word) : led (s.setStream ws) = led s := rfl
@[simp] theorem led_setMark (s : State) (m : Option Refusal) : led (s.setMark m) = led s := rfl
@[simp] theorem led_setDraws (s : State) (d : Nat) : led (s.setDraws d) = led s := rfl

theorem definedLed_of_ready {s : State} {v : BitVec s.N} (he : 1 ≤ s.edges) (h : s.value = some v) :
    definedLed s = some (compareLess s.cnt v) := by
  simp [definedLed, he, led_of_value h]

theorem definedLed_of_not_ready {s : State} (h : s.edges = 0 ∨ s.value = none) : definedLed s = none := by
  obtain h | h := h <;> simp [definedLed, h, led_of_none]

theorem nextCnt_toNat {N : Nat} (c : BitVec N) : (nextCnt c).toNat = (c.toNat + 1) % 2 ^ N := by
  simp [nextCnt, Config.increment]

@[simp] theorem State.clockEdge_N (s : State) : s.clockEdge.N = s.N := rfl
@[simp] theorem State.clockEdge_cnt (s : State) : s.clockEdge.cnt = nextCnt s.cnt := rfl
@[simp] theorem State.clockEdge_value (s : State) : s.clockEdge.value = s.value := rfl
@[simp] theorem State.clockEdge_edges (s : State) : s.clockEdge.edges = s.edges + 1 := rfl
@[simp] theorem State.clockEdge_trace (s : State) : s.clockEdge.trace = s.trace := rfl
@[simp] theorem State.clockEdge_stream (s : State) : s.clockEdge.stream = s.stream := rfl
@[simp] theorem State.clockEdge_mark (s : State) : s.clockEdge.mark = s.mark := rfl
@[simp] theorem State.clockEdge_draws (s : State) : s.clockEdge.draws = s.draws := rfl

theorem State.observe_of_ready {s : State} {v : BitVec s.N} (he : 1 ≤ s.edges) (h : s.value = some v) :
    s.observe = s.setTrace (s.trace ++ [triOfBit (compareLess s.cnt v)]) := by
  rw [State.observe, definedLed_of_ready he h]
  rfl

theorem State.observe_of_not_ready {s : State} (h : s.edges = 0 ∨ s.value = none) :
    s.observe = (s.setTrace (s.trace ++ [Config.freeTri s.draws])).setDraws (s.draws + 1) := by
  rw [State.observe, definedLed_of_not_ready h]
  rfl

/-- Everything an observation can do: a defined bit with the draws as they were, or a draw. -/
theorem State.observe_cases (s : State) :
    (∃ b, definedLed s = some b ∧ s.observe = s.setTrace (s.trace ++ [triOfBit b])) ∨
    (definedLed s = none ∧
      s.observe = (s.setTrace (s.trace ++ [Config.freeTri s.draws])).setDraws (s.draws + 1)) := by
  rcases h : definedLed s with _ | b
  · exact .inr ⟨rfl, by rw [State.observe, h]; rfl⟩
  · exact .inl ⟨b, rfl, by rw [State.observe, h]; rfl⟩

@[simp] theorem State.observe_N (s : State) : s.observe.N = s.N := by
  obtain ⟨b, -, e⟩ | ⟨-, e⟩ := s.observe_cases <;> rw [e] <;> rfl
@[simp] theorem State.observe_cnt_toNat (s : State) : s.observe.cnt.toNat = s.cnt.toNat := by
  obtain ⟨b, -, e⟩ | ⟨-, e⟩ := s.observe_cases <;> rw [e] <;> rfl
@[simp] theorem State.observe_value_toNat (s : State) :
    s.observe.value.map BitVec.toNat = s.value.map BitVec.toNat := by
  obtain ⟨b, -, e⟩ | ⟨-, e⟩ := s.observe_cases <;> rw [e] <;> rfl
@[simp] theorem State.observe_edges (s : State) : s.observe.edges = s.edges := by
  obtain ⟨b, -, e⟩ | ⟨-, e⟩ := s.observe_cases <;> rw [e] <;> rfl
@[simp] theorem State.observe_stream (s : State) : s.observe.stream = s.stream := by
  obtain ⟨b, -, e⟩ | ⟨-, e⟩ := s.observe_cases <;> rw [e] <;> rfl
@[simp] theorem State.observe_mark (s : State) : s.observe.mark = s.mark := by
  obtain ⟨b, -, e⟩ | ⟨-, e⟩ := s.observe_cases <;> rw [e] <;> rfl

theorem dutyOperand_of_lt {N v : Nat} (h : v < 2 ^ N) : dutyOperand N v = some (BitVec.ofNat N v) := by
  simp [dutyOperand, h]

theorem dutyOperand_of_ge {N v : Nat} (h : 2 ^ N ≤ v) : dutyOperand N v = none := by
  simp [dutyOperand, Nat.not_lt.mpr h]

/-- Everything a command can do when it answers a next state. -/
theorem exec_cases {i : Instr} {s t : State} (h : exec i s = .next t) :
    (i = .tick ∧ t = s.clockEdge) ∨
    (∃ v, i = .set v ∧ v < 2 ^ s.N ∧ t = s.setValue (some (BitVec.ofNat s.N v))) ∨
    (i = .sample ∧ t = s.observe) := by
  cases i with
  | tick => exact .inl ⟨rfl, by cases h; rfl⟩
  | set v =>
    refine .inr (.inl ⟨v, rfl, ?_⟩)
    by_cases hv : v < 2 ^ s.N
    · simp only [exec, execSet, dutyOperand_of_lt hv] at h
      cases h
      exact ⟨hv, rfl⟩
    · simp only [exec, execSet, dutyOperand_of_ge (Nat.not_lt.mp hv)] at h
      cases h
  | sample => exact .inr (.inr ⟨rfl, by cases h; rfl⟩)

/-- What no command changes: the width, what the host has yet to issue, the mark. -/
theorem exec_keeps {i : Instr} {s t : State} (h : exec i s = .next t) :
    t.N = s.N ∧ t.stream = s.stream ∧ t.mark = s.mark := by
  obtain ⟨-, rfl⟩ | ⟨v, -, -, rfl⟩ | ⟨-, rfl⟩ := exec_cases h
  · simp
  · simp
  · simp

/-- Everything fetching a command can do. -/
theorem State.fetch_run {s t : State} {i : Instr} (h : s.fetch = .run i t) :
    ∃ w rest, s.mark = none ∧ s.stream = w :: rest ∧ decode s.N w = .command i ∧ t = s.setStream rest := by
  unfold State.fetch at h
  split at h
  · cases h
  · rename_i hm
    split at h
    · cases h
    · rename_i w rest hs
      split at h
      · rename_i j hd
        cases h
        exact ⟨w, rest, hm, hs, hd, rfl⟩
      · cases h

/-- Everything a step can do when it answers a next state. -/
theorem step_cases {s t : State} (h : step s = .next t) :
    ∃ w rest i, s.mark = none ∧ s.stream = w :: rest ∧ decode s.N w = .command i ∧
      exec i (s.setStream rest) = .next t := by
  unfold step at h
  split at h
  · cases h
  · rename_i i u hf
    obtain ⟨w, rest, hm, hs, hd, rfl⟩ := State.fetch_run hf
    exact ⟨w, rest, i, hm, hs, hd, h⟩

end Sys2Proof.Machine
end

