-- ==== Sys2Proof/Laws/PerInstr.lean ====
section
/-! SUPPORT. What holds of every command as syntax, one lemma per constructor: the two fields of a
well-formed command's word are its opcode and its payload (rules R52, R53). -/

namespace Sys2Proof.Laws.EncodeFields

/-- The fields of the command's word read back as they were packed. -/
def Statement (i : Instr) : Prop :=
  ∀ N, WellFormed N i →
    (opField N (packFields N i.opcode i.payload)).toNat = i.opcode ∧
    (payloadField N (packFields N i.opcode i.payload)).toNat = i.payload

theorem tick : Statement .tick := fun _ _ =>
  ⟨opField_packFields (by decide) (by positivity), payloadField_packFields (by decide) (by positivity)⟩

theorem set (v : Nat) : Statement (.set v) := fun _ h =>
  have hv := of_decide_eq_true h
  have ho : (Instr.set v).opcode < 4 := show 1 < 4 by decide
  ⟨opField_packFields ho hv, payloadField_packFields ho hv⟩

theorem sample : Statement .sample := fun _ _ =>
  ⟨opField_packFields (by decide) (by positivity), payloadField_packFields (by decide) (by positivity)⟩

end Sys2Proof.Laws.EncodeFields
end

