-- ==== Sys2Proof/Laws/Stream.lean ====
section
/-! SUPPORT. Lists of commands. -/

namespace Sys2Proof.Machine

@[simp] theorem andThen_next (s : State) (f : State → Host.Outcome State Fault Refusal) :
    andThen (.next s) f = f s := rfl

@[simp] theorem execAll_nil (s : State) : execAll [] s = .next s := rfl

theorem execAll_cons (i : Instr) (is : List Instr) (s : State) :
    execAll (i :: is) s = andThen (exec i s) (execAll is) := rfl

theorem execAll_cons_next {i : Instr} {is : List Instr} {s t : State} (h : exec i s = .next t) :
    execAll (i :: is) s = execAll is t := by
  rw [execAll_cons, h, andThen_next]

/-- A list that answers a next state does so through the next state of its first command. -/
theorem execAll_cons_inv {i : Instr} {is : List Instr} {s u : State} (h : execAll (i :: is) s = .next u) :
    ∃ t, exec i s = .next t ∧ execAll is t = .next u := by
  rw [execAll_cons] at h
  rcases e : exec i s with t | f | r
  · exact ⟨t, rfl, by simpa [e] using h⟩
  · cases f
  · rw [e] at h
    cases h

theorem execAll_append (is js : List Instr) (s : State) :
    execAll (is ++ js) s = andThen (execAll is s) (execAll js) := by
  induction is generalizing s with
  | nil => rfl
  | cons i is ih =>
    rw [List.cons_append, execAll_cons, execAll_cons]
    rcases exec i s with t | f | r
    · exact ih t
    · rfl
    · rfl

theorem execAll_append_next {is js : List Instr} {s t : State} (h : execAll is s = .next t) :
    execAll (is ++ js) s = execAll js t := by
  rw [execAll_append, h, andThen_next]

/-- A run goes on from a next state, for any machine behind the host's interface. -/
theorem run_succ (M : Host.Core) {s t : M.State} (h : M.step s = .next t) (k : Nat) :
    M.run (k + 1) s = M.run k t := by
  simp only [Host.Core.run, h]

/-- A property that every command keeps is kept by a list of commands. -/
theorem execAll_keeps {P : State → Prop} (hP : ∀ i s t, P s → exec i s = .next t → P t) :
    ∀ (is : List Instr) (s t : State), P s → execAll is s = .next t → P t
  | [], s, t, hs, h => by cases h; exact hs
  | i :: is, s, t, hs, h => by
    obtain ⟨u, h1, h2⟩ := execAll_cons_inv h
    exact execAll_keeps hP is u t (hP i s u hs h1) h2

end Sys2Proof.Machine
end

