-- ==== Sys2Proof/Tests/Slice0.lean ====
section
/-! SUPPORT. Tests with expected results from 95_test_vectors.md and the worked examples of the rules, and
one witness for the hypotheses of each obligation that has any. -/

namespace Sys2Proof.Tests

open Sys2Proof Sys2Proof.Machine

/-- The state `{cnt c, value v, edges e}` of 95_test_vectors.md at width `N`. -/
def st (N : Nat) (h : 1 ≤ N) (c : Nat) (v : Option Nat) (e : Nat) : State :=
  { State.powerOn N h with cnt := BitVec.ofNat N c, value := v.map (BitVec.ofNat N), edges := e }

/-- The same at the reference width 4. -/
def st4 (c : Nat) (v : Option Nat) (e : Nat) : State := st 4 (by decide) c v e

/-- A 6-bit command word. -/
def w6 (w : Nat) : Word := ⟨6, BitVec.ofNat 6 w⟩

/-- Verifier parameters: settle 1, measure 2. -/
def params (tol : ℚ) (h : 0 ≤ tol) : VerifierParams := ⟨1, 2, by decide, tol, h⟩

/-- A verifier in a phase, with the vectors to run. -/
def verifier (todo : List Nat) (ph : VerifierPhase) : Verifier :=
  ⟨params 8 (by norm_num), todo, 0, ph, 0, []⟩

/-! ## Well-formedness: the one check, a duty value that does not fit (R54) -/

theorem test_set_15_well_formed : WellFormed 4 (.set 15) := by decide
theorem test_set_16_ill_formed : ¬ WellFormed 4 (.set 16) := by decide
theorem test_set_2_ill_formed_at_width_1 : ¬ WellFormed 1 (.set 2) := by decide

/-! ## Decoder words of section 2.1, written out bit by bit: op, then payload -/

theorem test_decode_tick : decode 4 ⟨6, 0b000000#6⟩ = .command .tick := by decide
theorem test_decode_tick_payload : decode 4 ⟨6, 0b000001#6⟩ = .invalid .tickPayload := by decide
theorem test_decode_set_0 : decode 4 ⟨6, 0b010000#6⟩ = .command (.set 0) := by decide
theorem test_decode_set_8 : decode 4 ⟨6, 0b011000#6⟩ = .command (.set 8) := by decide
theorem test_decode_set_15 : decode 4 ⟨6, 0b011111#6⟩ = .command (.set 15) := by decide
theorem test_decode_sample : decode 4 ⟨6, 0b100000#6⟩ = .command .sample := by decide
theorem test_decode_sample_payload : decode 4 ⟨6, 0b100001#6⟩ = .invalid .samplePayload := by decide
theorem test_decode_op_11 : decode 4 ⟨6, 0b110000#6⟩ = .invalid .opReserved := by decide
theorem test_decode_seven_bits : decode 4 ⟨7, 0b1000000#7⟩ = .invalid .wrongWidth := by decide
theorem test_decode_width_1 : decode 1 ⟨3, 0b011#3⟩ = .command (.set 1) := by decide
theorem test_decode_width_8 : decode 8 ⟨10, 0b0111111111#10⟩ = .command (.set 255) := by decide
theorem test_encode_set_8 : encode 4 (.set 8) = ⟨6, 0x18#6⟩ := by decide
theorem test_encode_sample : encode 4 .sample = ⟨6, 0x20#6⟩ := by decide

/-- The opcode table's rows, match and mask at `N = 4`. -/
theorem test_opcode_rows :
    opcodeRows 4 = [⟨"TICK", 0x00, 0x3F⟩, ⟨"SET", 0x10, 0x30⟩, ⟨"SAMPLE", 0x20, 0x3F⟩] := by decide
/-- The opcode table's rows in a byte, and a seventh bit (R56). -/
theorem test_table_words :
    decodeTableWord 8 0x00 = some .tick ∧ decodeTableWord 8 0x10 = some (.set 0) ∧
    decodeTableWord 8 0x20 = some .sample ∧ decodeTableWord 8 0x40 = none := by decide

/-- Log 9, the model's choice: containers of 5, 7 and 8 bits whose number fits stand for a command word;
a word of the stream of 5 or 7 bits is refused all the same (R56). -/
theorem test_containers_are_not_words :
    containerWord 4 5 0 = w6 0x00 ∧ containerWord 4 7 0 = w6 0x00 ∧ (containerWord 8 8 0).width = 10 ∧
    decode 4 ⟨5, 0#5⟩ = .invalid .wrongWidth ∧ decode 4 ⟨7, 0#7⟩ = .invalid .wrongWidth := by decide

/-! ## TICK, section 2.3 -/

theorem test_tick_from_14 : exec .tick (st4 14 (some 6) 30) = .next (st4 15 (some 6) 31) := by rfl
theorem test_tick_wraps : exec .tick (st4 15 (some 6) 31) = .next (st4 0 (some 6) 32) := by rfl

/-! ## SET, section 2.2 -/

theorem test_set_9 : exec (.set 9) (st4 5 none 3) = .next (st4 5 (some 9) 3) := by rfl
theorem test_set_16_refused : exec (.set 16) (st4 5 none 3) = .refused .dutyOutOfRange := by rfl

/-! ## SAMPLE, section 2.4 -/

theorem test_sample_strict : (st4 4 (some 4) 20).observe.trace = [.zero] := by decide
theorem test_sample_below : (st4 3 (some 4) 19).observe.trace = [.one] := by decide

/-- Before the first edge the result is a draw, even with `0 <u 5`; the free value stays free. -/
theorem test_sample_draw : (st4 0 (some 5) 0).observe.trace = [Config.freeTri 0] := by rfl

/-! ## The comparator table, the row `value = 2` of `N = 2`, and its largest duty at `N = 1` -/

theorem test_led_row :
    (List.range 4).map (fun c => led (st 2 (by decide) c (some 2) 1)) =
      [some .one, some .one, some .zero, some .zero] := by decide
theorem test_led_width_1 : led (st 1 (by decide) 1 (some 1) 1) = some .zero := by decide

/-! ## The stream: a step runs the word, a reserved word is refused and marks the run (section 3.5) -/

theorem test_step_runs_set :
    step (State.reset.withFetchWord 8 0x15) = exec (.set 5) State.reset := by rfl
theorem test_step_refuses_reserved :
    step (State.reset.withFetchWord 8 0x30) = .refused (.reservedCommand .opReserved) := by rfl

/-! ## The host: sections 1.1 and 2.5, and the assembler -/

theorem test_phase_hits_c8_v1 : phaseHits 4 8 1 8 = 1 := by decide
theorem test_phase_hits_c8_v10 : phaseHits 4 8 10 8 = 2 := by decide
/-- `v = 8`, 120 of 200 ones: the difference is the Tolerance 1/10 exactly, which passes. -/
theorem test_equal_tolerance_passes :
    violatesTolerance (1 / 10) (observedRatio 120 200) (expectedRatio 4 8) = false := by
  norm_num [violatesTolerance, observedRatio, expectedRatio]
/-- 121 of 200 ones is over it. -/
theorem test_over_tolerance_fails :
    violatesTolerance (1 / 10) (observedRatio 121 200) (expectedRatio 4 8) = true := by
  norm_num [violatesTolerance, observedRatio, expectedRatio]
theorem test_assemble_set_hex : assembleLine 4 ['S', 'E', 'T', ' ', '0', 'x', 'F', ';', 'h', 'i'] = .commands [.set 15] := by
  decide
theorem test_assemble_set_out_of_range : assembleLine 4 ['S', 'E', 'T', ' ', '1', '6'] = .refused .dutyOutOfRange := by
  decide
theorem test_assemble_testvec :
    assembleLine 4 ['T', 'E', 'S', 'T', 'V', 'E', 'C', ' ', '8', ',', ' ', '1', ',', '1'] =
      .commands [.set 8, .tick, .tick, .sample] := by decide
theorem test_assemble_lower_case : assembleLine 4 ['t', 'i', 'c', 'k'] = .refused .unknownLine := by decide

/-! ## Witnesses: for each obligation with hypotheses, data that meet them all -/

theorem witness_NoCommandReturnsToPowerOn :
    exec .tick State.reset = .next (st4 1 none 1) ∧
    ∃ t, step (State.reset.withFetchWord 8 0x00) = .next t := ⟨by rfl, _, rfl⟩
theorem witness_TickWrapsAtTop : (st4 15 none 0).cnt.toNat = 2 ^ (st4 15 none 0).N - 1 := by decide
theorem witness_NextCounterIsFunctionOfCounter :
    exec .tick (st4 7 (some 3) 2) = .next (st4 8 (some 3) 3) ∧
    exec (.set 5) (st4 7 (some 3) 2) = .next (st4 7 (some 5) 2) := ⟨by rfl, by rfl⟩
theorem witness_CounterVisitsEveryPhaseOnce : 0 < 2 ^ (st4 3 none 0).N ∧ 15 < 2 ^ (st4 3 none 0).N := by decide
theorem witness_SetResult : 0 < 2 ^ State.reset.N ∧ 15 < 2 ^ State.reset.N := by decide
theorem witness_SetRefusesOutOfRange : 2 ^ State.reset.N ≤ 16 := by decide
theorem witness_ValueIsHeldUntilNextSet : NoSet [.tick, .sample] ∧ 15 < 2 ^ State.reset.N := by
  refine ⟨fun v h => ?_, by decide⟩
  simp at h
theorem witness_OnlyLastSetMatters :
    1 < 2 ^ State.reset.N ∧ 15 < 2 ^ State.reset.N ∧ (st4 2 (some 9) 2).value = some 9#4 ∧
    exec (.set 9) (st4 2 none 2) = .next (st4 2 (some 9) 2) := ⟨by decide, by decide, rfl, by rfl⟩
theorem witness_SetAndTickCommute :
    7 < 2 ^ (st4 15 (some 1) 0).N ∧ (st4 15 (some 1) 0).value = some 1#4 := ⟨by decide, rfl⟩
theorem witness_ComparatorIsStrictLess :
    State.reset.value = none ∧ (st4 3 (some 4) 0).value = some 4#4 ∧
    ((st4 3 (some 4) 0).N = (st4 3 (some 4) 7).N ∧
      (st4 3 (some 4) 0).cnt.toNat = (st4 3 (some 4) 7).cnt.toNat ∧
      (st4 3 (some 4) 0).value.map BitVec.toNat = (st4 3 (some 4) 7).value.map BitVec.toNat) :=
  ⟨rfl, rfl, rfl, rfl, rfl⟩
theorem witness_SampleDefinedResult : 1 ≤ (st4 3 (some 4) 1).edges ∧ (st4 3 (some 4) 1).value = some 4#4 :=
  ⟨by decide, rfl⟩
theorem witness_SampleDrawResult :
    ((st4 0 (some 5) 0).edges = 0 ∨ (st4 0 (some 5) 0).value = none) ∧
    ((st4 1 none 1).edges = 0 ∨ (st4 1 none 1).value = none) := by decide
theorem witness_SampleHasNoSideEffect :
    Ready (st4 3 (some 4) 1) ∧ ∃ t, exec .sample (st4 3 (some 4) 1) = .next t := ⟨⟨by decide, rfl⟩, _, rfl⟩
theorem witness_SampleSeesTheEdgesUpdate : (st4 15 (some 1) 15).value = some 1#4 := rfl
theorem witness_DutyZeroIsAlwaysLow :
    1 ≤ (st4 0 (some 0) 16).edges ∧ (st4 0 (some 0) 16).value = some 0 ∧ NoSet [.tick, .sample] :=
  ⟨by decide, rfl, fun v h => by simp at h⟩
theorem witness_LargestDutyMissesOnePhase :
    (st4 15 (some 15) 15).value = some 15#4 ∧ (15#4).toNat = 2 ^ (st4 15 (some 15) 15).N - 1 ∧
    1 ≤ (st4 15 (some 15) 15).edges := ⟨rfl, by decide, by decide⟩
theorem witness_EveryCommandCompletes :
    WellFormed State.reset.N (.set 15) ∧ AllWellFormed State.reset.N [.set 15, .tick, .sample] := by decide
theorem witness_EdgesCountTicks :
    execAll [.tick, .set 6, .tick] (st4 14 none 30) = .next (st4 0 (some 6) 32) ∧
    ∃ t, step (State.reset.withFetchWord 8 0x00) = .next t := ⟨by rfl, _, rfl⟩
theorem witness_TraceGrowsOnlyAtSample :
    (∃ t, exec .sample (st4 1 (some 5) 1) = .next t) ∧ ∃ t, exec .tick (st4 1 (some 5) 1) = .next t :=
  ⟨⟨_, rfl⟩, _, rfl⟩
theorem witness_PhaseAloneDeterminesSamples :
    (st4 3 (some 4) 3).N = (st4 3 (some 4) 19).N ∧
    (st4 3 (some 4) 3).cnt.toNat = (st4 3 (some 4) 19).cnt.toNat ∧
    (st4 3 (some 4) 3).value.map BitVec.toNat = (st4 3 (some 4) 19).value.map BitVec.toNat ∧
    Ready (st4 3 (some 4) 3) ∧ Ready (st4 3 (some 4) 19) ∧
    AllWellFormed (st4 3 (some 4) 3).N [.tick, .sample, .set 15] :=
  ⟨rfl, rfl, rfl, ⟨by decide, rfl⟩, ⟨by decide, rfl⟩, by decide⟩
theorem witness_BootMakesSamplesDefined :
    AllWellFormed State.reset.N [.tick, .set 2] ∧ .tick ∈ [Instr.tick, .set 2] ∧ .set 2 ∈ [Instr.tick, .set 2] := by decide
theorem witness_DefinednessIsKept :
    Ready ((st4 3 (some 4) 1).withFetchWord 8 0x20) ∧
    ∃ t, step ((st4 3 (some 4) 1).withFetchWord 8 0x20) = .next t := ⟨⟨by decide, rfl⟩, _, rfl⟩
theorem witness_PhaseCountsEdgesIsKept :
    CountsEdges ((st4 15 none 31).withFetchWord 8 0x00) ∧
    ∃ t, step ((st4 15 none 31).withFetchWord 8 0x00) = .next t := ⟨by unfold CountsEdges; decide, _, rfl⟩
theorem witness_UndefinedSamplesAreDraws :
    XOnlyDrawn (State.reset.withFetchWord 8 0x20) ∧
    ∃ t, step (State.reset.withFetchWord 8 0x20) = .next t := ⟨by unfold XOnlyDrawn; decide, _, rfl⟩
theorem witness_StepRunsDecodedCommand :
    (State.reset.setStream [w6 0x1F, w6 0x00]).mark = none ∧
    (State.reset.setStream [w6 0x1F, w6 0x00]).stream = w6 0x1F :: [w6 0x00] ∧
    decode (State.reset.setStream [w6 0x1F, w6 0x00]).N (w6 0x1F) = .command (.set 15) := by decide
theorem witness_StepStopsByName :
    ((State.reset.setStream [w6 0x3F]).mark = none ∧ (State.reset.setStream [w6 0x3F]).stream = w6 0x3F :: [] ∧
      decode (State.reset.setStream [w6 0x3F]).N (w6 0x3F) = .invalid .opReserved) ∧
    (State.reset.setMark (some .streamEnded)).mark = some .streamEnded ∧
    (State.reset.mark = none ∧ State.reset.stream = []) := by decide
theorem witness_RefusalMarkIsKept :
    (State.reset.setStream [w6 0x30]).mark = none ∧ (State.reset.setStream [w6 0x30]).stream = w6 0x30 :: [] ∧
    decode (State.reset.setStream [w6 0x30]).N (w6 0x30) = .invalid .opReserved := by decide
theorem witness_StepFrame : ∃ t, step (State.reset.setStream [w6 0x00, w6 0x30]) = .next t := ⟨_, rfl⟩
theorem witness_StreamRunsCommandsInOrder :
    AllWellFormed State.reset.N [.set 2, .tick] ∧ (State.reset.setStream [w6 0x12, w6 0x00, w6 0x30]).mark = none ∧
    (State.reset.setStream [w6 0x12, w6 0x00, w6 0x30]).stream = wordsOf 4 [.set 2, .tick] ++ [w6 0x30] := by decide
theorem witness_FetchWordRunsNext :
    decode (st4 3 none 0).N (containerWord (st4 3 none 0).N 8 0x20) = .command .sample ∧
    decodeTableWord 8 0x20 = some .sample := by decide
theorem witness_DecodeOfEncode : WellFormed 4 (.set 15) ∧ WellFormed 1 .sample := by decide
theorem witness_EncodeOfDecode : decode 4 (w6 0x1F) = .command (.set 15) := by decide
theorem witness_DecoderIsTotal : (w6 0x00).width ≠ 1 + 2 := by decide
theorem witness_OpcodeRowsAgreeWithDecoder : 0x3F < 2 ^ (4 + 2) ∧ ⟨"SET", 0x10, 0x30⟩ ∈ opcodeRows 4 := by decide
theorem witness_AssembledCommandsAreWellFormed :
    assemble 4 [['S', 'E', 'T', ' ', '9'], [], ['S', 'T', 'E', 'P']] = .commands [.set 9, .tick, .sample] := by decide
theorem witness_AssemblerRefusesOutOfRange :
    (dutyLiteral ['1', '5'] = some 15 ∧ 15 < 2 ^ 4) ∧ (dutyLiteral ['0', 'x', '1', '0'] = some 16 ∧ 2 ^ 4 ≤ 16) := by decide
theorem witness_WindowSamplesFollowThePhase : (st4 14 (some 15) 0).value = some 15#4 := rfl
theorem witness_WindowCountFormula : (st4 8 (some 1) 0).value = some 1#4 := rfl
theorem witness_FullPeriodIsExact : (st4 5 (some 8) 0).value = some 8#4 := rfl
theorem witness_WindowRatioBound : (st4 8 (some 10) 0).value = some 10#4 ∧ 1 ≤ 200 := ⟨rfl, by decide⟩
theorem witness_WindowOnesAreMonotone :
    (st4 8 (some 1) 0).N = (st4 8 (some 10) 5).N ∧ (st4 8 (some 1) 0).cnt.toNat = (st4 8 (some 10) 5).cnt.toNat ∧
    (st4 8 (some 1) 0).value = some 1#4 ∧ (st4 8 (some 10) 5).value = some 10#4 ∧ (1#4).toNat ≤ (10#4).toNat :=
  ⟨rfl, rfl, rfl, rfl, by decide⟩
theorem witness_WiderCounterShowsTheSameLed : 4 ≤ 9 ∧ AllWellFormed 4 [.set 3, .tick] := by decide
theorem witness_UndefinedSamplesAreReported :
    0 < 1 ∧ (verifier [] (.measuring 1 0)).phase = .measuring (0 + 1) 0 ∧
    (verifier [] (.settling 0)).phase = .settling 0 ∧ (verifier [3] (.measuring 0 2)).phase = .measuring 0 2 :=
  ⟨by decide, rfl, rfl, rfl⟩
theorem witness_VerifierIssuesTestvec :
    (verifier [15] .idle).phase = .idle ∧ (verifier [15] .idle).todo = 15 :: [] ∧ 15 < 2 ^ State.reset.N :=
  ⟨rfl, rfl, by decide⟩
theorem witness_BenchRefinesSweep :
    (verifier [0, 15] .idle).phase = .idle ∧ ∀ v ∈ (verifier [0, 15] .idle).todo, v < 2 ^ State.reset.N :=
  ⟨rfl, by decide⟩
theorem witness_SweepPasses :
    (∀ v ∈ [0, 15], v < 2 ^ State.reset.N) ∧
    (2 ^ State.reset.N : ℚ) ≤ (params 8 (by norm_num)).tolerance * (params 8 (by norm_num)).measureCycles := by
  refine ⟨by decide, ?_⟩
  norm_num [params, State.reset, State.powerOn, Config.referenceN]
theorem witness_TimeAdvancesByEdges : exec .tick (st4 0 none 7) = .next (st4 1 none 8) := by rfl

end Sys2Proof.Tests
end

section
/-! The meaning of each command as an equation, and the frame facts of the state fields `cnt`, `value`
and `trace` (rules R30 to R35). -/

namespace Sys2Proof.Machine

/-! ## One equation per command -/

@[simp] theorem exec_tick (s : State) : exec .tick s = .next s.clockEdge := rfl

@[simp] theorem exec_sample (s : State) : exec .sample s = .next s.observe := rfl

theorem exec_set_of_lt {s : State} {v : Nat} (h : v < 2 ^ s.N) :
    exec (.set v) s = .next (s.setValue (some (BitVec.ofNat s.N v))) := by
  simp only [exec, execSet, dutyOperand_of_lt h]
  rfl

/-! ## The counter -/

/-- Only `TICK` moves the counter, to `nextCnt` of its present value (rules R30, R31). -/
theorem exec_cnt_toNat {i : Instr} {s t : State} (h : exec i s = .next t) :
    t.cnt.toNat = if i = .tick then (nextCnt s.cnt).toNat else s.cnt.toNat := by
  obtain ⟨rfl, rfl⟩ | ⟨v, rfl, -, rfl⟩ | ⟨rfl, rfl⟩ := exec_cases h
  · simp
  · simp
  · simp

/-! ## The value register -/

theorem noSet_cons {i : Instr} {is : List Instr} :
    NoSet (i :: is) ↔ (∀ v, i ≠ .set v) ∧ NoSet is := by
  simp only [NoSet, List.mem_cons, not_or, forall_and, ne_eq, eq_comm]

/-- A command that is no `SET` completes and keeps `value` (rule R33). -/
theorem exec_holds_value {i : Instr} (hi : ∀ v, i ≠ .set v) (s : State) :
    ∃ t, exec i s = .next t ∧ t.value.map BitVec.toNat = s.value.map BitVec.toNat := by
  cases i with
  | tick => exact ⟨s.clockEdge, exec_tick s, rfl⟩
  | set v => exact absurd rfl (hi v)
  | sample => exact ⟨s.observe, exec_sample s, s.observe_value_toNat⟩

/-- A list of commands without a `SET` completes and keeps `value` (rule R33). -/
theorem execAll_holds_value :
    ∀ (is : List Instr) (s : State), NoSet is →
      ∃ t, execAll is s = .next t ∧ t.value.map BitVec.toNat = s.value.map BitVec.toNat
  | [], s, _ => ⟨s, execAll_nil s, rfl⟩
  | i :: is, s, h => by
    obtain ⟨hi, his⟩ := noSet_cons.mp h
    obtain ⟨t, ht, hvt⟩ := exec_holds_value hi s
    obtain ⟨u, hu, hvu⟩ := execAll_holds_value is t his
    exact ⟨u, (execAll_cons_next ht).trans hu, hvu.trans hvt⟩

/-! ## The trace -/

@[simp] theorem definedLed_setTrace (s : State) (l : List Tri) : definedLed (s.setTrace l) = definedLed s := rfl

/-- An observation appends one result, which does not depend on the trace (rules R35, R71). -/
theorem State.observe_appends_one (s : State) :
    ∃ r, s.observe.trace = s.trace ++ [r] ∧
      ∀ l', (s.setTrace l').observe = s.observe.setTrace (l' ++ [r]) := by
  rcases h : definedLed s with _ | b
  · refine ⟨Config.freeTri s.draws, ?_, fun l' => ?_⟩
    · simp only [State.observe, h]; rfl
    · simp only [State.observe, definedLed_setTrace, h]; rfl
  · refine ⟨triOfBit b, ?_, fun l' => ?_⟩
    · simp only [State.observe, h]; rfl
    · simp only [State.observe, definedLed_setTrace, h]; rfl

/-- What a command does to the trace, and that it does not read it (rule R35). -/
theorem exec_trace {i : Instr} {s t : State} (h : exec i s = .next t) :
    ∃ l, t.trace = s.trace ++ l ∧ l.length = (if i = .sample then 1 else 0) ∧
      ∀ l', exec i (s.setTrace l') = .next (t.setTrace (l' ++ l)) := by
  obtain ⟨rfl, rfl⟩ | ⟨v, rfl, hv, rfl⟩ | ⟨rfl, rfl⟩ := exec_cases h
  · exact ⟨[], by simp, rfl, fun l' => by rw [List.append_nil]; rfl⟩
  · refine ⟨[], by simp, rfl, fun l' => ?_⟩
    rw [List.append_nil, exec_set_of_lt (s := s.setTrace l') hv]
    rfl
  · obtain ⟨r, hr, hl⟩ := s.observe_appends_one
    exact ⟨[r], hr, rfl, fun l' => by rw [exec_sample, hl]⟩

/-! ## The obligations of the state -/

/-- Settles O7: the one function is `nextCnt`, at every width. -/
theorem nextCounterIsFunctionOfCounter : Obligations.NextCounterIsFunctionOfCounter := by
  refine ⟨fun _ => nextCnt, fun i s t h => ⟨?_, exec_cnt_toNat h⟩⟩
  obtain ⟨hN, -, -⟩ := exec_keeps h
  exact hN

/-- Settles O11: by induction on the list, which starts in the second part from the state that the
`SET` leaves. -/
theorem valueIsHeldUntilNextSet : Obligations.ValueIsHeldUntilNextSet := by
  refine ⟨execAll_holds_value, fun v is s hv his => ?_⟩
  obtain ⟨t, ht, hvt⟩ := execAll_holds_value is (s.setValue (some (BitVec.ofNat s.N v))) his
  refine ⟨t, (execAll_cons_next (exec_set_of_lt hv)).trans ht, hvt.trans ?_⟩
  simp [Nat.mod_eq_of_lt hv]

/-- Settles O23: the empty trace is power-on's own field; the rest is what a command does to the
trace. -/
theorem traceGrowsOnlyAtSample : Obligations.TraceGrowsOnlyAtSample :=
  ⟨fun _ _ => rfl, fun _ _ _ => exec_trace⟩

end Sys2Proof.Machine
end

section
/-! What `SAMPLE` writes and what it reads (rules R44, R48, R71, R77). -/

namespace Sys2Proof.Machine

theorem definedLed_isSome_of_ready {s : State} (h : Ready s) : ∃ b, definedLed s = some b := by
  obtain ⟨he, hv⟩ := h
  obtain ⟨v, hv⟩ := Option.isSome_iff_exists.mp hv
  exact ⟨_, definedLed_of_ready he hv⟩

/-- Where the output is defined, `SAMPLE` appends it and draws nothing (rule R71). -/
theorem exec_sample_of_definedLed {s : State} {b : Bit} (h : definedLed s = some b) :
    exec .sample s = .next (s.setTrace (s.trace ++ [triOfBit b])) := by
  rw [exec_sample, State.observe, h]
  rfl

/-- The first sample leaves the output defined, so the second reads the same bit (rule R77). -/
theorem execAll_two_samples_of_definedLed {s : State} {b : Bit} (h : definedLed s = some b) :
    execAll [.sample, .sample] s = .next (s.setTrace (s.trace ++ [triOfBit b, triOfBit b])) := by
  have h' : definedLed (s.setTrace (s.trace ++ [triOfBit b])) = some b := (definedLed_setTrace s _).trans h
  rw [execAll_cons_next (exec_sample_of_definedLed h), execAll_cons_next (exec_sample_of_definedLed h'),
    execAll_nil, State.setTrace_trace, List.append_assoc]
  rfl

/-- An observation writes the trace and the index of the next draw, and no other field (rule R44). -/
theorem State.observe_writes_trace_and_draws (s : State) :
    ∃ r d, s.observe = (s.setTrace (s.trace ++ [r])).setDraws d := by
  obtain ⟨b, -, e⟩ | ⟨-, e⟩ := s.observe_cases
  · exact ⟨triOfBit b, s.draws, e⟩
  · exact ⟨Config.freeTri s.draws, s.draws + 1, e⟩

@[simp] theorem led_observe (s : State) : led s.observe = led s := by
  obtain ⟨r, d, e⟩ := s.observe_writes_trace_and_draws
  rw [e, led_setDraws, led_setTrace]

/-- After an edge with a driven `value`, the output compares the incremented counter (rule R48). -/
theorem definedLed_clockEdge {s : State} {v : BitVec s.N} (h : s.value = some v) :
    definedLed s.clockEdge = some (compareLess (nextCnt s.cnt) v) :=
  definedLed_of_ready (Nat.le_add_left 1 s.edges) h

/-- Settles O17: an observation writes the trace and the draw index alone, the comparator reads neither,
and a defined output is still the same output at the second sample. -/
theorem sampleHasNoSideEffect : Obligations.SampleHasNoSideEffect := by
  refine ⟨fun s => ?_, fun s t h => ?_, fun s hs => ?_⟩
  · obtain ⟨r, d, e⟩ := s.observe_writes_trace_and_draws
    exact ⟨r, d, congrArg Host.Outcome.next e⟩
  · obtain rfl : s.observe = t := Host.Outcome.next.inj h
    exact led_observe s
  · obtain ⟨b, hb⟩ := definedLed_isSome_of_ready hs
    exact ⟨triOfBit b, execAll_two_samples_of_definedLed hb⟩

/-- Settles O18: the sample runs in the state that the edge leaves, where the output is defined. -/
theorem sampleSeesTheEdgesUpdate : Obligations.SampleSeesTheEdgesUpdate := by
  intro s v hv
  refine ⟨s.clockEdge, exec_tick s, nextCnt_toNat s.cnt, ?_⟩
  rw [execAll_cons_next (exec_tick s), execAll_cons_next (exec_sample_of_definedLed (definedLed_clockEdge hv)),
    execAll_nil, triOfBit_compareLess]
  rfl

end Sys2Proof.Machine
end

section
/-! The clock edge at the top of the counter's range, and what it does not read (rules R67, R69). -/

namespace Sys2Proof.Machine

/-- The counter's next value after its greatest one is 0 (rule R67). -/
theorem nextCnt_of_top {N : Nat} {c : BitVec N} (h : c.toNat = 2 ^ N - 1) : nextCnt c = 0 := by
  have hpos : 1 ≤ 2 ^ N := Nat.one_le_two_pow
  apply BitVec.eq_of_toNat_eq
  calc (nextCnt c).toNat = (2 ^ N - 1 + 1) % 2 ^ N := by rw [nextCnt_toNat, h]
    _ = 0 := by rw [Nat.sub_add_cancel hpos, Nat.mod_self]
    _ = (0 : BitVec N).toNat := BitVec.toNat_zero.symm

/-- An edge carries the level of pin `value` along unread (rule R69). -/
theorem State.clockEdge_setValue (s : State) (x : Option (BitVec s.N)) :
    (s.setValue x).clockEdge = s.clockEdge.setValue x := rfl

/-- Settles O5: an edge writes `nextCnt` of the counter, which is 0 at the top, and counts itself. -/
theorem tickWrapsAtTop : Obligations.TickWrapsAtTop := by
  intro s htop
  rw [exec_tick, State.clockEdge, nextCnt_of_top htop]
  rfl

/-- Settles O6: the counter and the edge count are those the edge writes in `s` itself, since driving
`value` before the edge or after it is the same. -/
theorem tickIgnoresValue : Obligations.TickIgnoresValue := fun s =>
  ⟨nextCnt s.cnt, s.edges + 1, fun x => congrArg Host.Outcome.next (s.clockEdge_setValue x)⟩

end Sys2Proof.Machine
end

section
/-! The duty value 0: no phase is below it (rule R72). -/

namespace Sys2Proof.Machine

/-- No counter value is below 0 (rule R70). -/
theorem compareLess_zero {N : Nat} (c : BitVec N) : compareLess c 0 = .zero := by
  simp [compareLess, BitVec.ult]

theorem definedLed_of_duty_zero {s : State} (he : 1 ≤ s.edges) (hv : s.value = some 0) :
    definedLed s = some .zero := by
  rw [definedLed_of_ready he hv, compareLess_zero]

/-- A command that is no `SET` leaves the output defined under duty 0, and appends nothing but 0. -/
theorem exec_of_duty_zero {i : Instr} (hi : ∀ v, i ≠ .set v) {s : State} (he : 1 ≤ s.edges)
    (hv : s.value = some 0) :
    ∃ t l, exec i s = .next t ∧ 1 ≤ t.edges ∧ t.value = some 0 ∧
      t.trace = s.trace ++ l ∧ ∀ r ∈ l, r = .zero := by
  cases i with
  | tick =>
    exact ⟨s.clockEdge, [], exec_tick s, Nat.le_add_left 1 s.edges, hv, (List.append_nil _).symm, by simp⟩
  | set v => exact absurd rfl (hi v)
  | sample =>
    have hx := exec_sample_of_definedLed (definedLed_of_duty_zero he hv)
    exact ⟨_, [.zero], hx, he, hv, rfl, by simp⟩

/-- The samples along a list without a `SET` under duty 0 (rule R72). -/
theorem execAll_of_duty_zero :
    ∀ (is : List Instr) (s : State), NoSet is → 1 ≤ s.edges → s.value = some 0 →
      ∃ t l, execAll is s = .next t ∧ t.trace = s.trace ++ l ∧ ∀ r ∈ l, r = .zero
  | [], s, _, _, _ => ⟨s, [], execAll_nil s, (List.append_nil _).symm, by simp⟩
  | i :: is, s, h, he, hv => by
    obtain ⟨hi, his⟩ := noSet_cons.mp h
    obtain ⟨t, l, ht, het, hvt, hlt, hl⟩ := exec_of_duty_zero hi he hv
    obtain ⟨u, l', hu, hlu, hl'⟩ := execAll_of_duty_zero is t his het hvt
    refine ⟨u, l ++ l', (execAll_cons_next ht).trans hu, ?_, List.forall_mem_append.mpr ⟨hl, hl'⟩⟩
    rw [hlu, hlt, List.append_assoc]

/-- Settles O19: the defined output under duty 0 is 0, and by induction on the list it stays so. -/
theorem dutyZeroIsAlwaysLow : Obligations.DutyZeroIsAlwaysLow :=
  ⟨fun _ he hv => exec_sample_of_definedLed (definedLed_of_duty_zero he hv), execAll_of_duty_zero⟩

end Sys2Proof.Machine
end

section
/-! Every command of the block's width completes (rule R78). -/

namespace Sys2Proof.Machine

theorem wellFormed_tick {N : Nat} : WellFormed N .tick := rfl

theorem wellFormed_sample {N : Nat} : WellFormed N .sample := rfl

theorem wellFormed_set {N v : Nat} : WellFormed N (.set v) ↔ v < 2 ^ N := decide_eq_true_iff

theorem allWellFormed_stepCommands {N : Nat} : AllWellFormed N stepCommands :=
  List.forall_mem_cons.mpr ⟨wellFormed_tick, List.forall_mem_singleton.mpr wellFormed_sample⟩

theorem exec_completes {i : Instr} {s : State} (h : WellFormed s.N i) : ∃ t, exec i s = .next t := by
  cases i with
  | tick => exact ⟨s.clockEdge, exec_tick s⟩
  | set v => exact ⟨_, exec_set_of_lt (wellFormed_set.mp h)⟩
  | sample => exact ⟨s.observe, exec_sample s⟩

/-- No command changes the width, so the rest of the list is of the width of the state it runs in. -/
theorem execAll_completes :
    ∀ (is : List Instr) (s : State), AllWellFormed s.N is → ∃ t, execAll is s = .next t
  | [], s, _ => ⟨s, execAll_nil s⟩
  | i :: is, s, h => by
    obtain ⟨hi, his⟩ := List.forall_mem_cons.mp h
    obtain ⟨t, ht⟩ := exec_completes hi
    obtain ⟨hN, -, -⟩ := exec_keeps ht
    obtain ⟨u, hu⟩ := execAll_completes is t (by rwa [hN])
    exact ⟨u, (execAll_cons_next ht).trans hu⟩

/-- Settles O21: for one command by its constructors, for a list by induction. -/
theorem everyCommandCompletes : Obligations.EveryCommandCompletes :=
  ⟨fun _ _ => exec_completes, execAll_completes⟩

end Sys2Proof.Machine
end

section
/-! What the verifier reports on a vector (rules R90 to R92). -/

namespace Sys2Proof.Machine

theorem judge_diagnostics (p : VerifierParams) (N v count undef : Nat) :
    (judge p N v count undef).diagnostics =
      List.replicate undef .undefinedOutputError ++
        (if violatesTolerance p.tolerance (judge p N v count undef).observed (expectedRatio N v) then
          [.toleranceViolation (judge p N v count undef).observed (expectedRatio N v)]
        else []) := rfl

theorem violatesTolerance_iff (tolerance o e : ℚ) :
    violatesTolerance tolerance o e = true ↔ tolerance < |o - e| := decide_eq_true_iff

/-- The report's ToleranceViolation is the one that rule R90's comparison raises. -/
theorem mem_judge_toleranceViolation (p : VerifierParams) (N v count undef : Nat) (o e : ℚ) :
    .toleranceViolation o e ∈ (judge p N v count undef).diagnostics ↔
      p.tolerance < |(judge p N v count undef).observed - expectedRatio N v| ∧
        o = (judge p N v count undef).observed ∧ e = expectedRatio N v := by
  rw [judge_diagnostics, ← violatesTolerance_iff]
  split <;> simp [*]

theorem count_judge_undefinedOutputError (p : VerifierParams) (N v count undef : Nat) :
    (judge p N v count undef).diagnostics.count .undefinedOutputError = undef := by
  rw [judge_diagnostics, List.count_append, List.count_replicate_self]
  split <;> simp

theorem judge_fails_of_undef {undef : Nat} (h : 0 < undef) (p : VerifierParams) (N v count : Nat) :
    (judge p N v count undef).passed = false := by
  simp [judge, Nat.ne_of_gt h]

theorem undefinedSamples_eq_count : ∀ l : List Tri, undefinedSamples l = l.count .x
  | [] => rfl
  | r :: rs => by
    rw [undefinedSamples, undefinedSamples_eq_count rs, List.count_cons, Nat.add_comm]
    simp

/-- Settles O52: a report that violates the tolerance holds the two ratios compared. -/
theorem toleranceViolationIff : Obligations.ToleranceViolationIff := by
  intro p N v count undef
  simp only [mem_judge_toleranceViolation, expectedRatio]
  exact ⟨fun ⟨_, _, h, _⟩ => h, fun h => ⟨_, _, h, rfl, rfl⟩⟩

end Sys2Proof.Machine
end

section
/-! One turn of the verifier in each of its phases: what it issues and what it makes of the samples
(rules R88, R91). -/

namespace Sys2Proof.Machine

variable {h : Verifier} {k a v : Nat} {rest : List Nat}

theorem issue_idle (hp : h.phase = .idle) (ht : h.todo = v :: rest) : issue h = [.set v] := by
  simp [issue, hp, ht]

theorem issue_settling_succ (hp : h.phase = .settling (k + 1)) : issue h = [.tick] := by
  simp [issue, hp]

theorem issue_settling_zero (hp : h.phase = .settling 0) : issue h = [] := by
  simp [issue, hp]

theorem issue_measuring_succ (hp : h.phase = .measuring (k + 1) a) : issue h = stepCommands := by
  simp [issue, hp]

theorem issue_measuring_zero (hp : h.phase = .measuring 0 a) : issue h = [] := by
  simp [issue, hp]

theorem digest_idle (hp : h.phase = .idle) (ht : h.todo = v :: rest) (N : Nat) (l : List Tri) :
    digest N h l =
      { h with todo := rest, duty := v, phase := .settling h.params.settleCycles, undef := 0 } := by
  simp [digest, hp, ht]

theorem digest_settling_succ (hp : h.phase = .settling (k + 1)) (N : Nat) (l : List Tri) :
    digest N h l = { h with phase := .settling k } := by
  simp [digest, hp]

theorem digest_settling_zero (hp : h.phase = .settling 0) (N : Nat) (l : List Tri) :
    digest N h l = { h with phase := .measuring h.params.measureCycles 0 } := by
  simp [digest, hp]

theorem digest_measuring_succ (hp : h.phase = .measuring (k + 1) a) (N : Nat) (l : List Tri) :
    digest N h l =
      { h with phase := .measuring k (a + ones l), undef := h.undef + undefinedSamples l } := by
  simp [digest, hp]

theorem digest_measuring_zero (hp : h.phase = .measuring 0 a) (N : Nat) (l : List Tri) :
    digest N h l =
      { h with phase := .idle, reports := h.reports ++ [judge h.params N h.duty a h.undef] } := by
  simp [digest, hp]

/-- A settling turn examines no sample (rule R91). -/
theorem digest_settling_undef (hp : h.phase = .settling k) (N : Nat) (l : List Tri) :
    (digest N h l).undef = h.undef := by
  cases k with
  | zero => rw [digest_settling_zero hp]
  | succ k => rw [digest_settling_succ hp]

end Sys2Proof.Machine
end

section
/-! The settlement of rule R91, from the report and the turns. -/

namespace Sys2Proof.Machine

/-- Settles O53: the clauses are what the report holds and what a measuring, a settling and a
reporting turn make of their samples. -/
theorem undefinedSamplesAreReported : Obligations.UndefinedSamplesAreReported := by
  refine ⟨fun p N v count undef => ?_, fun N h k a l hp => ?_, fun N h k l hp => ?_, fun N h a l hp => ?_⟩
  · exact ⟨count_judge_undefinedOutputError p N v count undef, fun hu => judge_fails_of_undef hu p N v count⟩
  · rw [digest_measuring_succ hp, undefinedSamples_eq_count]
  · exact digest_settling_undef hp N l
  · rw [digest_measuring_zero hp]
    exact ⟨rfl, rfl, rfl⟩

end Sys2Proof.Machine
end

section
/-! The commands of a vector, phase by phase from its last turn back to its first (rule R88). -/

namespace Sys2Proof.Machine

/-- A turn that issues commands of the block's width is taken: the block runs them to some state. -/
theorem benchIssued_succ {b : Bench} {is : List Instr} (hi : issue b.host = is)
    (hw : AllWellFormed b.block.N is) (k : Nat) :
    ∃ t, benchIssued (k + 1) b =
      is ++ benchIssued k ⟨digest b.block.N b.host (newSamples b.block t), t⟩ := by
  subst hi
  obtain ⟨t, ht⟩ := execAll_completes _ _ hw
  exact ⟨t, by simp only [benchIssued, benchStep, ht]⟩

/-- From the measuring phase: the sampled edges that remain, then the report. -/
theorem benchIssued_measuring :
    ∀ (m : Nat) {a : Nat} {b : Bench}, b.host.phase = .measuring m a →
      benchIssued (m + 1) b = (List.replicate m stepCommands).flatten
  | 0, a, b, hp => by
    obtain ⟨t, ht⟩ := benchIssued_succ (issue_measuring_zero hp) (List.forall_mem_nil _) 0
    rw [ht]
    rfl
  | m + 1, a, b, hp => by
    obtain ⟨t, ht⟩ := benchIssued_succ (issue_measuring_succ hp) allWellFormed_stepCommands (m + 1)
    rw [ht, digest_measuring_succ hp, benchIssued_measuring m rfl, List.replicate_succ, List.flatten_cons]

/-- From the settling phase: the unsampled edges that remain, then the window. -/
theorem benchIssued_settling {p : VerifierParams} :
    ∀ (k : Nat) {b : Bench}, b.host.phase = .settling k → b.host.params = p →
      benchIssued (k + p.measureCycles + 2) b =
        List.replicate k .tick ++ (List.replicate p.measureCycles stepCommands).flatten
  | 0, b, hp, hparams => by
    obtain ⟨t, ht⟩ := benchIssued_succ (issue_settling_zero hp) (List.forall_mem_nil _) (p.measureCycles + 1)
    rw [Nat.zero_add, ht, digest_settling_zero hp, hparams, benchIssued_measuring _ rfl, List.replicate_zero]
  | k + 1, b, hp, hparams => by
    obtain ⟨t, ht⟩ := benchIssued_succ (issue_settling_succ hp)
      (List.forall_mem_singleton.mpr wellFormed_tick) (k + p.measureCycles + 2)
    have hk : k + 1 + p.measureCycles + 2 = k + p.measureCycles + 2 + 1 := by omega
    rw [hk, ht, digest_settling_succ hp, benchIssued_settling k, List.replicate_succ]
    · rfl
    · rfl
    · exact hparams

/-- Settles O54: the idle turn issues `SET v` and begins the settling phase. -/
theorem verifierIssuesTestvec : Obligations.VerifierIssuesTestvec := by
  intro b v rest hp htodo hv
  obtain ⟨t, ht⟩ := benchIssued_succ (issue_idle hp htodo)
    (List.forall_mem_singleton.mpr (wellFormed_set.mpr hv))
    (b.host.params.settleCycles + b.host.params.measureCycles + 2)
  rw [digest_idle hp htodo, benchIssued_settling b.host.params.settleCycles] at ht
  · exact ht
  · rfl
  · rfl

end Sys2Proof.Machine
end

section
/-! The power-on state: its counter, and the field that every command leaves with a value that no
power-on state holds (rules R101 to R105). -/

namespace Sys2Proof.Machine

/-! ## The fields of a power-on state -/

@[simp] theorem State.powerOn_cnt (N : Nat) (h : 1 ≤ N) : (State.powerOn N h).cnt = 0 := rfl
@[simp] theorem State.powerOn_value (N : Nat) (h : 1 ≤ N) : (State.powerOn N h).value = none := rfl
@[simp] theorem State.powerOn_edges (N : Nat) (h : 1 ≤ N) : (State.powerOn N h).edges = 0 := rfl
@[simp] theorem State.powerOn_trace (N : Nat) (h : 1 ≤ N) : (State.powerOn N h).trace = [] := rfl

/-! ## What every command leaves behind -/

/-- `TICK` leaves an edge counted, `SET` leaves `value` driven, `SAMPLE` leaves a sample in the trace. -/
theorem exec_leaves_effect {i : Instr} {s t : State} (h : exec i s = .next t) :
    t.edges ≠ 0 ∨ t.value ≠ none ∨ t.trace ≠ [] := by
  obtain ⟨-, rfl⟩ | ⟨v, -, -, rfl⟩ | ⟨-, rfl⟩ := exec_cases h
  · exact .inl (Nat.succ_ne_zero s.edges)
  · exact .inr (.inl (Option.some_ne_none _))
  · obtain ⟨r, hr, -⟩ := s.observe_appends_one
    exact .inr (.inr (by simp [hr]))

/-- No command ends in a power-on state (rule R101). -/
theorem exec_ne_powerOn {i : Instr} {s t : State} (h : exec i s = .next t) (N : Nat) (hN : 1 ≤ N) :
    t ≠ State.powerOn N hN := by
  rintro rfl
  simpa using exec_leaves_effect h

/-! ## The obligations of power-on -/

/-- Settles O3: a step that completes ends as the command it fetched ends, which is in no power-on
state. -/
theorem noCommandReturnsToPowerOn : Obligations.NoCommandReturnsToPowerOn := by
  refine ⟨⟨Config.referenceN, by decide, rfl⟩, fun i s t N hN h => exec_ne_powerOn h N hN,
    fun s t N hN h => ?_⟩
  obtain ⟨_, _, i, -, -, -, hexec⟩ := step_cases h
  exact exec_ne_powerOn hexec N hN

/-- Settles O1: the reset state is the power-on state of the reference width. -/
theorem powerOnCounterIsZero : Obligations.PowerOnCounterIsZero :=
  ⟨State.powerOn_cnt, State.powerOn_cnt Config.referenceN (by decide)⟩

end Sys2Proof.Machine
end

section
/-! The comparator as a comparison of numbers, and the frames of the equations per command (rules R63,
R66, R70, R71). -/

namespace Sys2Proof.Machine

theorem bit_decide (p : Prop) [Decidable p] : bit (decide p) = if p then .one else .zero := by
  simp [bit]

/-- `led` reads the numbers that `cnt` and `value` stand for, and nothing else (rule R70). -/
theorem led_eq_compare_numbers (s : State) :
    led s = (s.value.map BitVec.toNat).map fun v => if s.cnt.toNat < v then .one else .zero := by
  rcases h : s.value with _ | v
  · exact led_of_none h
  · exact (led_of_value h).trans (congrArg some (bit_decide (s.cnt.toNat < v.toNat)))

theorem led_congr {s t : State} (hc : s.cnt.toNat = t.cnt.toNat)
    (hv : s.value.map BitVec.toNat = t.value.map BitVec.toNat) : led s = led t := by
  rw [led_eq_compare_numbers, led_eq_compare_numbers, hc, hv]

theorem State.setValue_ofNat_toNat {s : State} {v : Nat} (hv : v < 2 ^ s.N) :
    (s.setValue (some (BitVec.ofNat s.N v))).value.map BitVec.toNat = some v := by
  simp [Nat.mod_eq_of_lt hv]

theorem exec_set_of_ge {s : State} {v : Nat} (h : 2 ^ s.N ≤ v) :
    exec (.set v) s = .refused .dutyOutOfRange := by
  simp only [exec, execSet, dutyOperand_of_ge h]

/-- An observation that draws (rule R71). -/
theorem exec_sample_of_not_ready {s : State} (h : s.edges = 0 ∨ s.value = none) :
    exec .sample s =
      .next ((s.setTrace (s.trace ++ [Config.freeTri s.draws])).setDraws (s.draws + 1)) := by
  rw [exec_sample, State.observe_of_not_ready h]

/-- The edge count grows by one at `TICK` and stays at any other command (rule R34). -/
theorem exec_edges {i : Instr} {s t : State} (h : exec i s = .next t) :
    t.edges = s.edges + if i = .tick then 1 else 0 := by
  obtain ⟨rfl, rfl⟩ | ⟨v, rfl, -, rfl⟩ | ⟨rfl, rfl⟩ := exec_cases h
  · simp
  · simp
  · simp

/-- Settles O2: the fields are those the definition writes. -/
theorem powerOnState : Obligations.PowerOnState := ⟨fun _ _ => rfl, rfl, rfl⟩

/-- Settles O4: the state is the one an edge leaves, and the sum is `nextCnt`. -/
theorem tickResult : Obligations.TickResult := fun s => ⟨exec_tick s, nextCnt_toNat s.cnt⟩

/-- Settles O9: a value that fits is its `N` bits, and the comparator reads them. -/
theorem setResult : Obligations.SetResult := by
  intro s v hv
  refine ⟨exec_set_of_lt hv, by rw [BitVec.toNat_ofNat, Nat.mod_eq_of_lt hv], ?_⟩
  have hled := led_eq_compare_numbers (s.setValue (some (BitVec.ofNat s.N v)))
  rw [State.setValue_ofNat_toNat hv] at hled
  exact hled

/-- Settles O10: an operand that does not fit has no `N` bits to drive. -/
theorem setRefusesOutOfRange : Obligations.SetRefusesOutOfRange := fun _ _ => exec_set_of_ge

/-- Settles O12: a `SET` writes `value` alone, and wholly. -/
theorem onlyLastSetMatters : Obligations.OnlyLastSetMatters := by
  refine ⟨fun s u v hu hv => ?_, fun s v hv => ?_, fun s t v h => by simpa using exec_cnt_toNat h⟩
  · rw [execAll_cons_next (exec_set_of_lt hu),
      execAll_cons_next (exec_set_of_lt (s := s.setValue (some (BitVec.ofNat s.N u))) hv), execAll_nil,
      exec_set_of_lt hv]
    rfl
  · rw [exec_set_of_lt v.isLt, BitVec.ofNat_toNat, BitVec.setWidth_eq, ← hv]
    rfl

/-- Settles O14: `led` is a comparison of the two numbers. -/
theorem comparatorIsStrictLess : Obligations.ComparatorIsStrictLess := by
  refine ⟨fun s => led_of_none, fun s v hv => ?_, fun s t _ => led_congr⟩
  rw [led_eq_compare_numbers, hv]
  rfl

/-- Settles O15: the appended observation is the comparator's bit. -/
theorem sampleDefinedResult : Obligations.SampleDefinedResult := by
  intro s v he hv
  rw [exec_sample_of_definedLed (definedLed_of_ready he hv), triOfBit_compareLess]
  rfl

/-- Settles O16: a draw leaves the edge count and `value`, so the second sample draws too. -/
theorem sampleDrawResult : Obligations.SampleDrawResult := by
  intro s h
  refine ⟨exec_sample_of_not_ready h, ?_⟩
  have h' (l d) : exec .sample ((s.setTrace l).setDraws d) = _ := exec_sample_of_not_ready h
  rw [execAll_cons_next (exec_sample_of_not_ready h), execAll_cons_next (h' _ _), execAll_nil]
  simp [State.setTrace, State.setDraws]

/-- The sample after an edge compares the incremented counter with the number in force (rule R48). -/
theorem exec_sample_clockEdge {s : State} {v : Nat} (h : s.value.map BitVec.toNat = some v) :
    exec .sample s.clockEdge = .next (s.clockEdge.setTrace
      (s.trace ++ [if (nextCnt s.cnt).toNat < v then .one else .zero])) := by
  obtain ⟨w, hw, rfl⟩ := Option.map_eq_some_iff.mp h
  rw [exec_sample_of_definedLed (definedLed_clockEdge hw), triOfBit_compareLess]
  rfl

/-- Settles O13: the edge leaves `value` unread, so either order leaves the edge of the state with `v`
driven; each sample follows the edge, and reads the value then in force. -/
theorem setAndTickCommute : Obligations.SetAndTickCommute := by
  intro s v hv
  have hset : exec (.set v) s = .next (s.setValue (some (BitVec.ofNat s.N v))) := exec_set_of_lt hv
  have hset' : exec (.set v) s.clockEdge = .next (s.setValue (some (BitVec.ofNat s.N v))).clockEdge :=
    exec_set_of_lt (s := s.clockEdge) hv
  have hsample := exec_sample_clockEdge (State.setValue_ofNat_toNat hv)
  refine ⟨(s.setValue (some (BitVec.ofNat s.N v))).clockEdge, ?_, ?_, ?_, ?_, fun w hw => ?_⟩
  · rw [execAll_cons_next hset, execAll_cons_next (exec_tick _), execAll_nil]
  · rw [execAll_cons_next (exec_tick s), execAll_cons_next hset', execAll_nil]
  · rw [execAll_cons_next hset, execAll_cons_next (exec_tick _), execAll_cons_next hsample]
    rfl
  · rw [execAll_cons_next (exec_tick s), execAll_cons_next hset', execAll_cons_next hsample]
    rfl
  · rw [execAll_cons_next (exec_tick s),
      execAll_cons_next (exec_sample_clockEdge (congrArg (Option.map BitVec.toNat) hw))]
    exact execAll_cons_next (exec_set_of_lt (s := s.clockEdge.setTrace _) hv)

/-- Settles O57: one period of the clock per edge counted. -/
theorem timeAdvancesByEdges : Obligations.TimeAdvancesByEdges := by
  refine ⟨fun F N h => by simp [simulatedTime], fun F i s t h => ?_⟩
  simp only [simulatedTime, exec_edges h]
  cases i with
  | tick => simp [commandTime, add_div]
  | set v => simp [commandTime]
  | sample => simp [commandTime]

end Sys2Proof.Machine
end

section
/-! Runs of edges, sampled or not, as one state each (rules R60, R68, R75). -/

namespace Sys2Proof.Machine

/-! ## Unsampled edges -/

/-- The state `k` edges later, nothing else done (rule R68). -/
def State.edgesLater (s : State) (k : Nat) : State :=
  (s.setCnt (s.cnt + BitVec.ofNat s.N k)).setEdges (s.edges + k)

@[simp] theorem State.edgesLater_cnt_toNat (s : State) (k : Nat) :
    (s.edgesLater k).cnt.toNat = (s.cnt.toNat + k) % 2 ^ s.N := by
  simp [State.edgesLater]

@[simp] theorem State.edgesLater_zero (s : State) : s.edgesLater 0 = s := by
  simp [State.edgesLater, State.setCnt, State.setEdges]

theorem State.edgesLater_clockEdge (s : State) (k : Nat) :
    (s.edgesLater k).clockEdge = s.edgesLater (k + 1) :=
  calc (s.edgesLater k).clockEdge
    _ = (s.setCnt (s.cnt + BitVec.ofNat s.N k + BitVec.ofNat s.N 1)).setEdges (s.edges + k + 1) := rfl
    _ = s.edgesLater (k + 1) := by rw [BitVec.add_assoc, ← BitVec.ofNat_add, Nat.add_assoc]; rfl

theorem ticksCommands_eq_replicate : ∀ k, ticksCommands k = List.replicate k .tick
  | 0 => rfl
  | k + 1 => by rw [ticksCommands, ticksCommands_eq_replicate k, List.replicate_succ]

theorem ticksCommands_succ (k : Nat) : ticksCommands (k + 1) = ticksCommands k ++ [.tick] := by
  simp only [ticksCommands_eq_replicate, List.replicate_succ']

/-- `TICKS k` is `k` edges, from any state (rules R60, R68). -/
theorem execAll_ticks (s : State) : ∀ k, execAll (ticksCommands k) s = .next (s.edgesLater k)
  | 0 => congrArg Host.Outcome.next s.edgesLater_zero.symm
  | k + 1 => by
    rw [ticksCommands_succ, execAll_append_next (execAll_ticks s k), execAll_cons_next (exec_tick _),
      execAll_nil, s.edgesLater_clockEdge]

/-- `k` edges end in the phase they began in exactly when `2^N` divides `k` (rule R68). -/
theorem add_mod_eq_self_iff {c k P : Nat} (hc : c < P) : (c + k) % P = c ↔ P ∣ k :=
  calc (c + k) % P = c
    _ ↔ c + k ≡ c + 0 [MOD P] := by rw [Nat.ModEq, Nat.add_zero, Nat.mod_eq_of_lt hc]
    _ ↔ k ≡ 0 [MOD P] := Nat.ModEq.add_iff_left rfl
    _ ↔ P ∣ k := Nat.modEq_zero_iff_dvd

/-- From a phase below `P`, one count of edges among 1 to `P` leads to a given phase: the one that makes
up the distance, around the top of the counter if need be (rule R68). -/
theorem existsUnique_edges_to_phase {c d P : Nat} (hc : c < P) (hd : d < P) :
    ∃! k, k < P ∧ (c + (k + 1)) % P = d := by
  have hex : ∃ k < P, (c + (k + 1)) % P = d := by
    by_cases h : c < d
    · refine ⟨d - (c + 1), by omega, ?_⟩
      rw [show c + (d - (c + 1) + 1) = d by omega, Nat.mod_eq_of_lt hd]
    · refine ⟨d + P - (c + 1), by omega, ?_⟩
      rw [show c + (d + P - (c + 1) + 1) = d + P by omega, Nat.add_mod_right, Nat.mod_eq_of_lt hd]
  obtain ⟨k, hk, hkd⟩ := hex
  refine ⟨k, ⟨hk, hkd⟩, fun j ⟨hj, hjd⟩ => ?_⟩
  have hmod : c + 1 + j ≡ c + 1 + k [MOD P] := by
    rw [Nat.ModEq, Nat.add_assoc c, Nat.add_assoc c, Nat.add_comm 1 j, Nat.add_comm 1 k, hjd, hkd]
  exact (Nat.ModEq.add_left_cancel' (c + 1) hmod).eq_of_lt_of_lt hj hk

/-- Settles O8: the closed form of `TICKS k`; the rest is arithmetic modulo `2^N`. -/
theorem counterVisitsEveryPhaseOnce : Obligations.CounterVisitsEveryPhaseOnce := by
  refine ⟨fun s k => ⟨_, execAll_ticks s k, s.edgesLater_cnt_toNat k, ?_⟩, fun s c hc => ?_⟩
  · rw [s.edgesLater_cnt_toNat, add_mod_eq_self_iff s.cnt.isLt]
  · simpa only [execAll_ticks, Host.Outcome.next.injEq, exists_eq_left', State.edgesLater_cnt_toNat] using
      existsUnique_edges_to_phase s.cnt.isLt hc

/-! ## Sampled edges -/

theorem measureCommands_eq_flatten : ∀ m, measureCommands m = (List.replicate m stepCommands).flatten
  | 0 => rfl
  | m + 1 => by rw [measureCommands, measureCommands_eq_flatten m]; rfl

theorem measureCommands_succ (m : Nat) : measureCommands (m + 1) = measureCommands m ++ stepCommands := by
  simp [measureCommands_eq_flatten, List.replicate_succ']

theorem triOfBit_bit_decide (p : Prop) [Decidable p] :
    triOfBit (bit (decide p)) = if p then .one else .zero := by
  by_cases h : p <;> simp [h]

/-- The state after the window of the next `m` edges under duty `v` (rule R75). -/
def State.windowLater (s : State) (v m : Nat) : State :=
  (s.edgesLater m).setTrace (s.trace ++ windowBits s.N s.cnt.toNat v m)

theorem State.windowLater_zero (s : State) (v : Nat) : s.windowLater v 0 = s := by
  rw [State.windowLater, s.edgesLater_zero, windowBits, List.append_nil]
  rfl

/-- One more edge and its sample are one more bit of the window. -/
theorem State.windowLater_succ (s : State) (v m : Nat) :
    s.windowLater v (m + 1) = (s.windowLater v m).clockEdge.setTrace ((s.windowLater v m).trace ++
      [if (nextCnt (s.windowLater v m).cnt).toNat < v then .one else .zero]) := by
  have hcnt : (nextCnt (s.windowLater v m).cnt).toNat = (s.cnt.toNat + (m + 1)) % 2 ^ s.N :=
    calc (nextCnt (s.windowLater v m).cnt).toNat
      _ = (s.edgesLater m).clockEdge.cnt.toNat := rfl
      _ = (s.cnt.toNat + (m + 1)) % 2 ^ s.N := by rw [s.edgesLater_clockEdge, s.edgesLater_cnt_toNat]
  calc s.windowLater v (m + 1)
    _ = (s.edgesLater m).clockEdge.setTrace (s.trace ++ windowBits s.N s.cnt.toNat v (m + 1)) := by
      rw [s.edgesLater_clockEdge, State.windowLater]
    _ = _ := by
      rw [windowBits, triOfBit_bit_decide, ← List.append_assoc, hcnt]
      rfl

theorem execAll_step {s : State} {v : Nat} (hv : s.value.map BitVec.toNat = some v) :
    execAll stepCommands s = .next (s.clockEdge.setTrace
      (s.trace ++ [if (nextCnt s.cnt).toNat < v then .one else .zero])) := by
  rw [stepCommands, execAll_cons_next (exec_tick s), execAll_cons_next (exec_sample_clockEdge hv), execAll_nil]

/-- `MEASURE m` under a driven value: the window's bits in the trace, the edges counted, nothing else
(rules R60, R75). -/
theorem execAll_measure {s : State} {v : Nat} (hv : s.value.map BitVec.toNat = some v) :
    ∀ m, execAll (measureCommands m) s = .next (s.windowLater v m)
  | 0 => congrArg Host.Outcome.next (s.windowLater_zero v).symm
  | m + 1 => by
    rw [measureCommands_succ, execAll_append_next (execAll_measure hv m),
      execAll_step (s := s.windowLater v m) hv, s.windowLater_succ]

/-- Settles O45: the state after the window, field by field. -/
theorem windowSamplesFollowThePhase : Obligations.WindowSamplesFollowThePhase := by
  intro s v m hv
  have hv' : s.value.map BitVec.toNat = some v.toNat := congrArg (Option.map BitVec.toNat) hv
  exact ⟨_, execAll_measure hv' m, rfl, s.edgesLater_cnt_toNat m, rfl, rfl, hv', rfl, rfl, rfl⟩

end Sys2Proof.Machine
end

section
/-! The ones of a window of edges (rules R73 to R76): a window is a stretch of phases, over a full period
every phase is met once, and the rest of the window adds its own hits. -/

namespace Sys2Proof.Machine

/-! ## Counting phases -/

theorem phaseHits_eq_count (N c v : Nat) :
    ∀ r, phaseHits N c v r = Nat.count (fun j => (c + 1 + j) % 2 ^ N < v) r
  | 0 => (Nat.count_zero _).symm
  | r + 1 => by
    rw [phaseHits, phaseHits_eq_count N c v r, Nat.count_succ, Nat.add_right_comm c 1 r, Nat.add_assoc c]

theorem phaseHits_add (N c v a b : Nat) :
    phaseHits N c v (a + b) = phaseHits N c v a + phaseHits N (c + a) v b := by
  simp only [phaseHits_eq_count, Nat.count_add, Nat.add_assoc, Nat.add_left_comm a 1]

theorem phaseHits_le_length (N c v r : Nat) : phaseHits N c v r ≤ r := by
  rw [phaseHits_eq_count]
  exact Nat.count_le _

/-- A larger duty is hit at every phase the smaller one is (rule R76). -/
theorem phaseHits_mono (N c r : Nat) {v w : Nat} (h : v ≤ w) : phaseHits N c v r ≤ phaseHits N c w r := by
  simp only [phaseHits_eq_count]
  exact Nat.count_mono_left fun _ _ hj => Nat.lt_of_lt_of_le hj h

theorem count_mod_lt {P v : Nat} (hv : v ≤ P) : Nat.count (fun x => x % P < v) P = v := by
  have h : (Finset.range P).filter (fun x => x % P < v) = Finset.range v := by
    ext x
    simp only [Finset.mem_filter, Finset.mem_range]
    constructor
    · rintro ⟨hx, hm⟩
      rwa [Nat.mod_eq_of_lt hx] at hm
    · intro hx
      have hxP : x < P := Nat.lt_of_lt_of_le hx hv
      exact ⟨hxP, by rwa [Nat.mod_eq_of_lt hxP]⟩
  rw [Nat.count_eq_card_filter_range, h, Finset.card_range]

/-- A full period meets every phase once, wherever it begins (rule R74): the phases below `c + 1 + 2^N`,
counted from either end, are those below `c + 1` and a period. -/
theorem phaseHits_period (N c : Nat) {v : Nat} (hv : v ≤ 2 ^ N) : phaseHits N c v (2 ^ N) = v := by
  have hfront := Nat.count_add (fun x => x % 2 ^ N < v) (c + 1) (2 ^ N)
  have hback := Nat.count_add (fun x => x % 2 ^ N < v) (2 ^ N) (c + 1)
  simp only [Nat.add_mod_left, count_mod_lt hv] at hback
  rw [Nat.add_comm (2 ^ N), hfront] at hback
  rw [phaseHits_eq_count]
  omega

theorem phaseHits_periods_add (N c r : Nat) {v : Nat} (hv : v ≤ 2 ^ N) :
    ∀ q, phaseHits N c v (r + 2 ^ N * q) = q * v + phaseHits N c v r
  | 0 => by simp
  | q + 1 => by
    rw [Nat.mul_succ, ← Nat.add_assoc, phaseHits_add, phaseHits_periods_add N c r hv q, phaseHits_period _ _ hv]
    ring

/-- Any window is full periods and a remainder (rule R75). -/
theorem phaseHits_eq_periods_add_rest (N c m : Nat) {v : Nat} (hv : v ≤ 2 ^ N) :
    phaseHits N c v m = m / 2 ^ N * v + phaseHits N c v (m % 2 ^ N) := by
  rw [← phaseHits_periods_add N c _ hv, Nat.mod_add_div]

/-- The hits of a window are off their share by less than a period's: the full periods are exact, and
the rest is shorter than one (rule R75). -/
theorem abs_phaseHits_sub_share_lt (N c m : Nat) {v : Nat} (hv : v < 2 ^ N) :
    |(phaseHits N c v m * 2 ^ N : ℤ) - m * v| < 2 ^ N * 2 ^ N := by
  have hr : m % 2 ^ N < 2 ^ N := Nat.mod_lt _ (by positivity)
  have hhits : phaseHits N c v (m % 2 ^ N) * 2 ^ N < 2 ^ N * 2 ^ N :=
    Nat.mul_lt_mul_of_pos_right ((phaseHits_le_length N c v _).trans_lt hr) (by positivity)
  have hshare : m % 2 ^ N * v < 2 ^ N * 2 ^ N := Nat.mul_lt_mul'' hr hv
  have hdiff : (phaseHits N c v m * 2 ^ N : ℤ) - m * v =
      phaseHits N c v (m % 2 ^ N) * 2 ^ N - (m % 2 ^ N : ℕ) * v := by
    have hm : (m : ℤ) = 2 ^ N * (m / 2 ^ N : ℕ) + (m % 2 ^ N : ℕ) := by
      exact_mod_cast (Nat.div_add_mod m (2 ^ N)).symm
    rw [phaseHits_eq_periods_add_rest N c m hv.le, Nat.cast_add, Nat.cast_mul]
    linear_combination (-v : ℤ) * hm
  rw [hdiff]
  exact abs_sub_lt_of_nonneg_of_lt (by positivity) (by exact_mod_cast hhits) (by positivity)
    (by exact_mod_cast hshare)

/-! ## The ones of a window of samples -/

theorem ones_eq_count : ∀ l : List Tri, ones l = l.count .one
  | [] => rfl
  | r :: rs => by
    rw [ones, ones_eq_count rs, List.count_cons, Nat.add_comm]
    simp

theorem ones_append (l k : List Tri) : ones (l ++ k) = ones l + ones k := by
  simp only [ones_eq_count, List.count_append]

theorem ones_windowBits (N c v : Nat) : ∀ m, ones (windowBits N c v m) = phaseHits N c v m
  | 0 => rfl
  | m + 1 => by
    rw [windowBits, phaseHits, ones_append, ones_windowBits N c v m, triOfBit_bit_decide]
    split <;> rfl

theorem ones_windowBits_mono {N M c d v w : Nat} (m : Nat) (hN : N = M) (hc : c = d) (hvw : v ≤ w) :
    ones (windowBits N c v m) ≤ ones (windowBits M d w m) := by
  rw [ones_windowBits, ones_windowBits, hN, hc]
  exact phaseHits_mono M d m hvw

@[simp] theorem length_windowBits (N c v : Nat) : ∀ m, (windowBits N c v m).length = m
  | 0 => rfl
  | m + 1 => by rw [windowBits, List.length_append, length_windowBits N c v m, List.length_singleton]

/-- What every statement on windows says of the run: it completes and appends the window's bits. -/
theorem execAll_measure_of_value {s : State} {v : BitVec s.N} (hv : s.value = some v) (m : Nat) :
    ∃ t, execAll (measureCommands m) s = .next t ∧
      t.trace = s.trace ++ windowBits s.N s.cnt.toNat v.toNat m :=
  ⟨_, execAll_measure (congrArg (Option.map BitVec.toNat) hv) m, rfl⟩

/-- Settles O46: the ones of the window are the hits of its phases. -/
theorem windowCountFormula : Obligations.WindowCountFormula := by
  intro s v m hv
  obtain ⟨t, ht, htrace⟩ := execAll_measure_of_value hv m
  refine ⟨t, _, ht, htrace, length_windowBits .., ?_⟩
  rw [ones_windowBits, phaseHits_eq_periods_add_rest _ _ _ v.isLt.le]

/-- The ones of a full period, from any phase (rule R74). -/
theorem ones_windowBits_period (N c : Nat) {v : Nat} (hv : v ≤ 2 ^ N) :
    ones (windowBits N c v (2 ^ N)) = v := by
  rw [ones_windowBits, phaseHits_period N c hv]

/-- Settles O47: a full period meets each of the `v` phases below `v` once. -/
theorem fullPeriodIsExact : Obligations.FullPeriodIsExact := by
  intro s v hv
  obtain ⟨t, ht, htrace⟩ := execAll_measure_of_value hv (2 ^ s.N)
  exact ⟨t, _, ht, htrace, length_windowBits .., ones_windowBits_period _ _ v.isLt.le⟩

/-- The bound on the share of ones, on the window's bits (rule R75). -/
theorem abs_observedRatio_sub_expectedRatio_lt (N c : Nat) {v m : Nat} (hv : v < 2 ^ N) (hm : 1 ≤ m) :
    |observedRatio (ones (windowBits N c v m)) m - expectedRatio N v| < 2 ^ N / m := by
  have hP : (0 : ℚ) < 2 ^ N := by positivity
  have hm' : (0 : ℚ) < m := by exact_mod_cast hm
  have hcross : |(phaseHits N c v m : ℚ) * 2 ^ N - m * v| < 2 ^ N * 2 ^ N := by
    exact_mod_cast abs_phaseHits_sub_share_lt N c m hv
  calc |observedRatio (ones (windowBits N c v m)) m - expectedRatio N v|
    _ = |(phaseHits N c v m : ℚ) * 2 ^ N - m * v| / (m * 2 ^ N) := by
      rw [observedRatio, expectedRatio, ones_windowBits, div_sub_div _ _ hm'.ne' hP.ne', abs_div,
        abs_of_pos (mul_pos hm' hP)]
    _ < 2 ^ N * 2 ^ N / (m * 2 ^ N) := by gcongr
    _ = 2 ^ N / m := mul_div_mul_right _ _ hP.ne'

/-- Settles O48: the share of the window's ones is off by less than a period's. -/
theorem windowRatioBound : Obligations.WindowRatioBound := by
  intro s v m hv hm
  obtain ⟨t, ht, htrace⟩ := execAll_measure_of_value hv m
  exact ⟨t, _, ht, htrace, length_windowBits .., abs_observedRatio_sub_expectedRatio_lt _ _ v.isLt hm⟩

/-- Settles O49: both windows are over the same phases. -/
theorem windowOnesAreMonotone : Obligations.WindowOnesAreMonotone := by
  intro s t v w m hN hc hv hw hvw
  obtain ⟨s', hs', hstrace⟩ := execAll_measure_of_value hv m
  obtain ⟨t', ht', httrace⟩ := execAll_measure_of_value hw m
  refine ⟨s', t', _, _, hs', ht', hstrace, httrace, ?_⟩
  exact ones_windowBits_mono m hN hc hvw

/-- Settles O20: below the largest duty are all the phases but itself. -/
theorem largestDutyMissesOnePhase : Obligations.LargestDutyMissesOnePhase := by
  intro s v hv hmax
  obtain ⟨t, ht, htrace⟩ := execAll_measure_of_value hv (2 ^ s.N)
  refine ⟨fun he => ?_, t, _, ht, htrace, length_windowBits .., ?_⟩
  · rw [sampleDefinedResult s v he hv, hmax]
    have hlt : s.cnt.toNat < 2 ^ s.N := s.cnt.isLt
    have hiff : s.cnt.toNat < 2 ^ s.N - 1 ↔ ¬ s.cnt.toNat = 2 ^ s.N - 1 := by omega
    simp only [hiff, ite_not]
  · rw [ones_windowBits_period _ _ v.isLt.le, hmax]

end Sys2Proof.Machine
end

section
/-! The clear form of a vector and of the sweep: what the block answers, and that every vector passes when
the window is long enough for the tolerance (rules R75, R88 to R93). -/

namespace Sys2Proof.Machine

/-! ## The samples of a run -/

theorem newSamples_of_trace_eq {s t : State} {l : List Tri} (h : t.trace = s.trace ++ l) : newSamples s t = l := by
  rw [newSamples, h, List.drop_left]

theorem undefinedSamples_append (l k : List Tri) :
    undefinedSamples (l ++ k) = undefinedSamples l + undefinedSamples k := by
  simp only [undefinedSamples_eq_count, List.count_append]

/-- A window holds computed bits only (rule R16). -/
theorem undefinedSamples_windowBits (N c v : Nat) : ∀ m, undefinedSamples (windowBits N c v m) = 0
  | 0 => rfl
  | m + 1 => by
    rw [windowBits, undefinedSamples_append, undefinedSamples_windowBits N c v m, triOfBit_bit_decide]
    split <;> rfl

/-! ## One vector -/

/-- Where the window of the vector `v` begins: `v` driven, `k` edges settled (rule R88). -/
def State.settled (s : State) (v k : Nat) : State := (s.setValue (some (BitVec.ofNat s.N v))).edgesLater k

/-- The window of the vector `v`, of `m` sampled edges after `k` settled ones (rule R88). -/
def State.vectorBits (s : State) (v k m : Nat) : List Tri :=
  windowBits s.N (s.settled v k).cnt.toNat v m

theorem execAll_settled_measure {s : State} {v : Nat} (hv : v < 2 ^ s.N) (k m : Nat) :
    execAll (measureCommands m) (s.settled v k) = .next ((s.settled v k).windowLater v m) :=
  execAll_measure (s := s.settled v k) (State.setValue_ofNat_toNat hv) m

theorem execAll_testvec {s : State} {v : Nat} (hv : v < 2 ^ s.N) (k m : Nat) :
    execAll (testvecCommands v k m) s = .next ((s.settled v k).windowLater v m) := by
  rw [testvecCommands, execAll_cons_next (exec_set_of_lt hv), execAll_append_next (execAll_ticks _ k)]
  exact execAll_settled_measure hv k m

/-- The report on a vector is the judgement of its window (rules R88 to R92). -/
def vectorReport (p : VerifierParams) (s : State) (v : Nat) : VectorReport :=
  judge p s.N v (ones (s.vectorBits v p.settleCycles p.measureCycles))
    (undefinedSamples (s.vectorBits v p.settleCycles p.measureCycles))

@[simp] theorem vectorReport_duty (p : VerifierParams) (s : State) (v : Nat) :
    (vectorReport p s v).duty = v := rfl

/-- The block after a vector (rule R88). -/
def State.afterVector (s : State) (p : VerifierParams) (v : Nat) : State :=
  (s.settled v p.settleCycles).windowLater v p.measureCycles

theorem testVector_eq {s : State} {v : Nat} (hv : v < 2 ^ s.N) (p : VerifierParams) :
    testVector p v s = .next (vectorReport p s v, s.afterVector p v) := by
  have hnew : newSamples s ((s.settled v p.settleCycles).windowLater v p.measureCycles) =
      s.vectorBits v p.settleCycles p.measureCycles := newSamples_of_trace_eq rfl
  simp only [testVector, execAll_testvec hv, hnew]
  rfl

/-- The sweep goes on after a vector from the state that the vector left (rule R93). -/
theorem sweep_cons {s t : State} {v : Nat} (hv : v < 2 ^ s.N) {p : VerifierParams} {vs : List Nat}
    {rs : List VectorReport} (h : sweep p vs (s.afterVector p v) = .next (rs, t)) :
    sweep p (v :: vs) s = .next (vectorReport p s v :: rs, t) := by
  simp only [sweep, testVector_eq hv, h]

/-! ## The tolerance -/

/-- A window long enough for the tolerance violates none (rules R75, R90). -/
theorem vectorReport_passes {p : VerifierParams} {s : State} {v : Nat} (hv : v < 2 ^ s.N)
    (hp : (2 ^ s.N : ℚ) ≤ p.tolerance * p.measureCycles) :
    (vectorReport p s v).passed = true ∧ (vectorReport p s v).diagnostics = [] := by
  have hm : (0 : ℚ) < p.measureCycles := by exact_mod_cast p.measure_pos
  have hclose : |observedRatio (ones (s.vectorBits v p.settleCycles p.measureCycles)) p.measureCycles -
      expectedRatio s.N v| ≤ p.tolerance :=
    (abs_observedRatio_sub_expectedRatio_lt _ _ hv p.measure_pos).le.trans ((div_le_iff₀ hm).mpr hp)
  have hundef : undefinedSamples (s.vectorBits v p.settleCycles p.measureCycles) = 0 :=
    undefinedSamples_windowBits ..
  simp [vectorReport, judge, violatesTolerance, hundef, hclose]

/-- Settles O51: `ones` counts the samples equal to 1, and the window is not empty. -/
theorem observedRatioIsExact : Obligations.ObservedRatioIsExact := by
  intro p N v l undef
  have hm : (p.measureCycles : ℚ) ≠ 0 := by exact_mod_cast Nat.one_le_iff_ne_zero.mp p.measure_pos
  rw [← ones_eq_count]
  exact div_mul_cancel₀ _ hm

/-- Settles O56: by induction on the vectors, each from the state the one before left. -/
theorem sweepPasses : Obligations.SweepPasses := by
  intro p vs
  induction vs with
  | nil => exact fun s _ _ => ⟨[], s, rfl, rfl, List.forall_mem_nil _⟩
  | cons v vs ih =>
    intro s hvs hp
    obtain ⟨hv, hvs⟩ := List.forall_mem_cons.mp hvs
    obtain ⟨rs, t, hsweep, hduty, hpass⟩ := ih (s.afterVector p v) hvs hp
    refine ⟨vectorReport p s v :: rs, t, sweep_cons hv hsweep, ?_, ?_⟩
    · rw [List.map_cons, vectorReport_duty, hduty]
    · exact List.forall_mem_cons.mpr ⟨vectorReport_passes hv hp, hpass⟩

end Sys2Proof.Machine
end

section
/-! The verifier turn by turn makes the report of the clear form, vector by vector (rules R86, R88, R91,
R93). -/

namespace Sys2Proof.Machine

/-! ## The samples of a run, piece by piece -/

theorem execAll_extends_trace {is : List Instr} {s t : State} (h : execAll is s = .next t) :
    s.trace <+: t.trace := by
  refine execAll_keeps (P := fun u => s.trace <+: u.trace) (fun i u u' hu hexec => ?_) is s t
    List.prefix_rfl h
  obtain ⟨l, hl, -⟩ := exec_trace hexec
  exact hu.trans ⟨l, hl.symm⟩

theorem execAll_keeps_width {is : List Instr} {s t : State} (h : execAll is s = .next t) : t.N = s.N := by
  refine execAll_keeps (P := fun u => u.N = s.N) (fun i u u' hu hexec => ?_) is s t rfl h
  obtain ⟨hN, -, -⟩ := exec_keeps hexec
  exact hN.trans hu

theorem newSamples_append {s t u : State} (hst : s.trace <+: t.trace) (htu : t.trace <+: u.trace) :
    newSamples s u = newSamples s t ++ newSamples t u := by
  obtain ⟨l, hl⟩ := hst
  obtain ⟨k, hk⟩ := htu
  rw [newSamples_of_trace_eq hl.symm, newSamples_of_trace_eq hk.symm]
  exact newSamples_of_trace_eq (by rw [← hk, ← hl, List.append_assoc])

/-! ## Turns -/

/-- A turn that issues `is` runs them on the block and digests their samples. -/
theorem benchRun_succ {b : Bench} {is : List Instr} {t : State} (hi : issue b.host = is)
    (ht : execAll is b.block = .next t) (k : Nat) :
    benchRun (k + 1) b = benchRun k ⟨digest b.block.N b.host (newSamples b.block t), t⟩ := by
  subst hi
  simp only [benchRun, benchStep, ht]

/-- The verifier after the samples `l` that complete its window, of which `a` ones were counted before:
the report is made and the verifier idle (rules R88, R91). -/
def Verifier.reported (h : Verifier) (N a : Nat) (l : List Tri) : Verifier :=
  { h with
    phase := .idle
    undef := h.undef + undefinedSamples l
    reports := h.reports ++ [judge h.params N h.duty (a + ones l) (h.undef + undefinedSamples l)] }

theorem reported_nil {h : Verifier} {a : Nat} (hp : h.phase = .measuring 0 a) (N : Nat) (l : List Tri) :
    digest N h l = h.reported N a [] := digest_measuring_zero hp N l

/-- The samples of one turn count with those still to come. -/
theorem reported_digest {h : Verifier} {m a : Nat} (hp : h.phase = .measuring (m + 1) a) (N : Nat)
    (l k : List Tri) : (digest N h l).reported N (a + ones l) k = h.reported N a (l ++ k) := by
  rw [digest_measuring_succ hp]
  simp only [Verifier.reported, ones_append, undefinedSamples_append, Nat.add_assoc]

/-- From the measuring phase: the sampled edges that remain, and the report on all the samples. -/
theorem benchRun_measuring (j : Nat) :
    ∀ (m : Nat) {a : Nat} {b : Bench} {u : State}, b.host.phase = .measuring m a →
      execAll (measureCommands m) b.block = .next u →
      benchRun (m + (j + 1)) b = benchRun j ⟨b.host.reported b.block.N a (newSamples b.block u), u⟩
  | 0, a, b, u, hp, hu => by
    obtain rfl : b.block = u := Host.Outcome.next.inj hu
    have hnew : newSamples b.block b.block = [] := newSamples_of_trace_eq (List.append_nil _).symm
    rw [Nat.zero_add, benchRun_succ (issue_measuring_zero hp) (execAll_nil _), reported_nil hp, hnew]
  | m + 1, a, b, u, hp, hu => by
    obtain ⟨t, ht⟩ := execAll_completes _ b.block allWellFormed_stepCommands
    have hmeasure : execAll (measureCommands m) t = .next u := by
      rwa [measureCommands, execAll_append_next ht] at hu
    rw [Nat.add_right_comm, benchRun_succ (issue_measuring_succ hp) ht,
      benchRun_measuring j m (by rw [digest_measuring_succ hp]) hmeasure, execAll_keeps_width ht,
      reported_digest hp, newSamples_append (execAll_extends_trace ht) (execAll_extends_trace hmeasure)]

/-- From the settling phase: the unsampled edges that remain, of which no sample counts (rule R91). -/
theorem benchRun_settling (j : Nat) :
    ∀ (k : Nat) {b : Bench} {t : State}, b.host.phase = .settling k →
      execAll (ticksCommands k) b.block = .next t →
      benchRun (k + (j + 1)) b =
        benchRun j ⟨{ b.host with phase := .measuring b.host.params.measureCycles 0 }, t⟩
  | 0, b, t, hp, ht => by
    obtain rfl : b.block = t := Host.Outcome.next.inj ht
    rw [Nat.zero_add, benchRun_succ (issue_settling_zero hp) (execAll_nil _), digest_settling_zero hp]
  | k + 1, b, t, hp, ht => by
    rw [ticksCommands, execAll_cons_next (exec_tick _)] at ht
    rw [Nat.add_right_comm, benchRun_succ (issue_settling_succ hp) (execAll_cons_next (exec_tick _)),
      digest_settling_succ hp, benchRun_settling j k rfl ht]

/-- The verifier at the start of the window of `v`, `rest` still to come (rule R88). -/
def Verifier.atWindow (h : Verifier) (v : Nat) (rest : List Nat) : Verifier :=
  { h with todo := rest, duty := v, phase := .measuring h.params.measureCycles 0, undef := 0 }

/-- The verifier after the vector `v` against the block `s`. -/
def Verifier.afterVector (h : Verifier) (s : State) (v : Nat) (rest : List Nat) : Verifier :=
  (h.atWindow v rest).reported s.N 0 (s.vectorBits v h.params.settleCycles h.params.measureCycles)

theorem Verifier.afterVector_reports (h : Verifier) (s : State) (v : Nat) (rest : List Nat) :
    (h.afterVector s v rest).reports = h.reports ++ [vectorReport h.params s v] := by
  simp [Verifier.afterVector, Verifier.reported, Verifier.atWindow, vectorReport]

/-- From the idle phase: the next vector, to its report. -/
theorem benchRun_vector {b : Bench} {v : Nat} {rest : List Nat} (hp : b.host.phase = .idle)
    (htodo : b.host.todo = v :: rest) (hv : v < 2 ^ b.block.N) (j : Nat) :
    benchRun (turnsPerVector b.host.params + j) b =
      benchRun j ⟨b.host.afterVector b.block v rest, b.block.afterVector b.host.params v⟩ := by
  have hturns : turnsPerVector b.host.params + j =
      b.host.params.settleCycles + (b.host.params.measureCycles + (j + 1) + 1) + 1 := by
    rw [turnsPerVector]
    omega
  have hset : execAll [.set v] b.block = .next (b.block.setValue (some (BitVec.ofNat b.block.N v))) :=
    execAll_cons_next (exec_set_of_lt hv)
  have hnew : newSamples (b.block.settled v b.host.params.settleCycles) (b.block.afterVector b.host.params v) =
      b.block.vectorBits v b.host.params.settleCycles b.host.params.measureCycles :=
    newSamples_of_trace_eq rfl
  rw [hturns, benchRun_succ (issue_idle hp htodo) hset, digest_idle hp htodo,
    benchRun_settling _ _ rfl (execAll_ticks _ _), benchRun_measuring j _ rfl (execAll_settled_measure hv _ _),
    Verifier.afterVector, ← hnew]
  rfl

/-- The bench from an idle verifier with the vectors `vs` to come, by induction on them. -/
theorem benchRun_refines_sweep :
    ∀ (vs : List Nat) {b : Bench}, b.host.phase = .idle → b.host.todo = vs →
      (∀ v ∈ vs, v < 2 ^ b.block.N) →
      ∃ rs t h, sweep b.host.params vs b.block = .next (rs, t) ∧
        benchRun (vs.length * turnsPerVector b.host.params) b = .next ⟨h, t⟩ ∧
        h.reports = b.host.reports ++ rs ∧ h.todo = [] ∧ h.phase = .idle ∧ rs.map VectorReport.duty = vs
  | [], b, hp, htodo, _ => by
    refine ⟨[], b.block, b.host, rfl, ?_, (List.append_nil _).symm, htodo, hp, rfl⟩
    rw [List.length_nil, Nat.zero_mul]
    rfl
  | v :: vs, b, hp, htodo, hvs => by
    obtain ⟨hv, hvs⟩ := List.forall_mem_cons.mp hvs
    obtain ⟨rs, t, h, hsweep, hrun, hreports, htodo', hphase', hduty⟩ := benchRun_refines_sweep vs
      (b := ⟨b.host.afterVector b.block v vs, b.block.afterVector b.host.params v⟩) rfl rfl hvs
    refine ⟨vectorReport b.host.params b.block v :: rs, t, h, sweep_cons hv hsweep, ?_, ?_, htodo',
      hphase', ?_⟩
    · rw [List.length_cons, Nat.succ_mul, Nat.add_comm, benchRun_vector hp htodo hv]
      exact hrun
    · rw [hreports, Verifier.afterVector_reports, List.append_assoc, List.singleton_append]
    · rw [List.map_cons, vectorReport_duty, hduty]

/-- Settles O55: vector by vector, the turns make the report of the clear form. -/
theorem benchRefinesSweep : Obligations.BenchRefinesSweep := fun _ hp hvs =>
  benchRun_refines_sweep _ hp rfl hvs

end Sys2Proof.Machine
end

section
/-! The decoder and the encoder (rules R51 to R56). -/

namespace Sys2Proof.Machine

/-! ## The round trips -/

theorem decode_packFields {N op payload : Nat} (ho : op < 4) (hp : payload < 2 ^ N) :
    decode N ⟨N + 2, packFields N op payload⟩ = decodeFields (BitVec.ofNat 2 op) payload := by
  have hop : opField N (packFields N op payload) = BitVec.ofNat 2 op :=
    BitVec.eq_of_toNat_eq (by rw [opField_packFields ho hp, BitVec.toNat_ofNat, Nat.mod_eq_of_lt ho])
  rw [decode_ofBits, decodeBits, hop, payloadField_packFields ho hp]

/-- The opcode map gives every command back from its two fields (rule R53). -/
theorem decodeFields_opcode_payload (i : Instr) :
    decodeFields (BitVec.ofNat 2 i.opcode) i.payload = .command i := by
  cases i <;> rfl

theorem opcode_lt_four : ∀ i : Instr, i.opcode < 4
  | .tick => show 0 < 4 by decide
  | .set _ => show 1 < 4 by decide
  | .sample => show 2 < 4 by decide

theorem payload_lt {N : Nat} : ∀ {i : Instr}, WellFormed N i → i.payload < 2 ^ N
  | .tick, _ => Nat.two_pow_pos N
  | .set _, h => wellFormed_set.mp h
  | .sample, _ => Nat.two_pow_pos N

theorem decode_encode {N : Nat} {i : Instr} (h : WellFormed N i) : decode N (encode N i) = .command i := by
  rw [encode, decode_packFields (opcode_lt_four i) (payload_lt h), decodeFields_opcode_payload]

/-- A command read from two fields is of the payload's width, and has the fields it was read from. -/
theorem fields_of_decodeFields {N payload : Nat} {op : BitVec 2} {i : Instr} (hp : payload < 2 ^ N)
    (h : decodeFields op payload = .command i) :
    WellFormed N i ∧ i.opcode = op.toNat ∧ i.payload = payload := by
  obtain ⟨ho, hz, e⟩ | ⟨-, -, e⟩ | ⟨ho, e⟩ | ⟨ho, hz, e⟩ | ⟨-, -, e⟩ | ⟨-, e⟩ :=
    decodeFields_cases op payload
  · obtain rfl := Verdict.command.inj (e.symm.trans h)
    exact ⟨wellFormed_tick, ho.symm, hz.symm⟩
  · cases e.symm.trans h
  · obtain rfl := Verdict.command.inj (e.symm.trans h)
    exact ⟨wellFormed_set.mpr hp, ho.symm, rfl⟩
  · obtain rfl := Verdict.command.inj (e.symm.trans h)
    exact ⟨wellFormed_sample, ho.symm, hz.symm⟩
  · cases e.symm.trans h
  · cases e.symm.trans h

/-- A word is the one packed from its fields (rule R52). -/
theorem packFields_of_fields (N : Nat) (w : BitVec (N + 2)) :
    packFields N (opField N w).toNat (payloadField N w).toNat = w := by
  rw [packFields, ← toNat_eq_fields, BitVec.ofNat_toNat, BitVec.setWidth_eq]

theorem encode_of_decode {N : Nat} {w : Word} {i : Instr} (h : decode N w = .command i) :
    WellFormed N i ∧ encode N i = w := by
  obtain ⟨width, bits⟩ := w
  by_cases hw : width = N + 2
  · subst hw
    rw [decode_ofBits, decodeBits] at h
    obtain ⟨hwf, ho, hp⟩ := fields_of_decodeFields (payloadField N bits).isLt h
    exact ⟨hwf, by rw [encode, ho, hp, packFields_of_fields]⟩
  · cases (decode_wrongWidth hw).symm.trans h

theorem decode_eq_command_iff {N : Nat} {w : Word} {i : Instr} :
    decode N w = .command i ↔ WellFormed N i ∧ encode N i = w :=
  ⟨encode_of_decode, fun ⟨hwf, hw⟩ => hw ▸ decode_encode hwf⟩

/-- Settles O36: the fields of a packed word are those packed, and the opcode map gives the command back. -/
theorem decodeOfEncode : Obligations.DecodeOfEncode := fun _ _ h => ⟨rfl, decode_encode h⟩

/-- Settles O37: a command has the fields it was read from, and a word is its fields packed. -/
theorem encodeOfDecode : Obligations.EncodeOfDecode := fun _ _ _ => encode_of_decode

/-- Settles O38: the opcode map's rows, of the fields as quotient and remainder. -/
theorem decoderIsTotal : Obligations.DecoderIsTotal := by
  refine ⟨fun N w => ?_, fun N w => decode_wrongWidth⟩
  rw [decode_ofBits, decodeBits, ← opField_toNat, ← payloadField_toNat]
  obtain ⟨ho, hz, e⟩ | ⟨ho, hz, e⟩ | ⟨ho, e⟩ | ⟨ho, hz, e⟩ | ⟨ho, hz, e⟩ | ⟨ho, e⟩ :=
    decodeFields_cases (opField N w) (payloadField N w).toNat
  · rw [e, ho, hz]
    rfl
  · obtain ⟨k, hk⟩ := Nat.exists_eq_succ_of_ne_zero hz
    rw [e, ho, hk]
    rfl
  · rw [e, ho]
    rfl
  · rw [e, ho, hz]
    rfl
  · obtain ⟨k, hk⟩ := Nat.exists_eq_succ_of_ne_zero hz
    rw [e, ho, hk]
    rfl
  · rw [e, ho]
    rfl

/-- Settles O41: each word is evaluated. -/
theorem specWordsDecode : Obligations.SpecWordsDecode := by
  unfold Obligations.SpecWordsDecode
  decide

/-! ## The match and mask lines -/

/-- A number of `N + 2` bits spells the command whose two fields it packs (rules R51 to R53). -/
theorem decode_ofNat_eq_command_iff {N w : Nat} (hw : w < 2 ^ (N + 2)) {i : Instr} :
    decode N ⟨N + 2, BitVec.ofNat (N + 2) w⟩ = .command i ↔
      WellFormed N i ∧ i.opcode * 2 ^ N + i.payload = w := by
  rw [decode_eq_command_iff]
  refine and_congr_right fun hwf => ⟨fun h => ?_, fun h => congrArg (Word.mk (N + 2)) (congrArg _ h)⟩
  have hbits : packFields N i.opcode i.payload = BitVec.ofNat (N + 2) w := by
    simpa [encode] using h
  rw [← packFields_toNat (opcode_lt_four i) (payload_lt hwf), hbits, BitVec.toNat_ofNat, Nat.mod_eq_of_lt hw]

theorem mnemonic_eq_tick_iff {i : Instr} : i.mnemonic = "TICK" ↔ i = .tick := by
  cases i <;> simp [Instr.mnemonic]

theorem mnemonic_eq_set_iff {i : Instr} : i.mnemonic = "SET" ↔ ∃ v, i = .set v := by
  cases i <;> simp [Instr.mnemonic]

theorem mnemonic_eq_sample_iff {i : Instr} : i.mnemonic = "SAMPLE" ↔ i = .sample := by
  cases i <;> simp [Instr.mnemonic]

/-- The mask of the op field keeps the op where it stands (rule R53). -/
theorem and_op_mask (N w : Nat) (hw : w < 2 ^ (N + 2)) : w &&& 3 <<< N = (w / 2 ^ N) <<< N := by
  have hop : w / 2 ^ N < 4 := by
    rw [Nat.pow_add, Nat.mul_comm] at hw
    exact (Nat.div_lt_iff_lt_mul (Nat.two_pow_pos N)).mpr hw
  have hmask : w &&& 3 <<< N = (w >>> N &&& 3) <<< N := by
    apply Nat.eq_of_testBit_eq
    intro i
    by_cases hi : N ≤ i
    · simp [hi]
    · simp [hi]
  rw [hmask, Nat.shiftRight_eq_div_pow, Nat.and_two_pow_sub_one_eq_mod _ 2, Nat.mod_eq_of_lt hop]

theorem hits_full_mask_iff {N w : Nat} (hw : w < 2 ^ (N + 2)) (mnemonic : String) (pattern : Nat) :
    (OpcodeRow.mk mnemonic pattern (2 ^ (N + 2) - 1)).hits w = true ↔ w = pattern := by
  rw [OpcodeRow.hits, beq_iff_eq, Nat.and_two_pow_sub_one_eq_mod, Nat.mod_eq_of_lt hw]

theorem hits_op_mask_iff {N w : Nat} (hw : w < 2 ^ (N + 2)) (mnemonic : String) (op : Nat) :
    (OpcodeRow.mk mnemonic (op <<< N) (3 <<< N)).hits w = true ↔ w / 2 ^ N = op := by
  rw [OpcodeRow.hits, beq_iff_eq, and_op_mask N w hw, Nat.shiftLeft_eq, Nat.shiftLeft_eq,
    Nat.mul_left_inj (Nat.two_pow_pos N).ne']

/-- The numbers with op 1 are those of the words of `SET` (rule R53). -/
theorem div_eq_one_iff_set {N w : Nat} :
    w / 2 ^ N = 1 ↔
      ∃ v, WellFormed N (.set v) ∧ (Instr.set v).opcode * 2 ^ N + (Instr.set v).payload = w := by
  have hpos := Nat.two_pow_pos N
  constructor
  · intro h
    refine ⟨w % 2 ^ N, wellFormed_set.mpr (Nat.mod_lt w hpos), ?_⟩
    calc 1 * 2 ^ N + w % 2 ^ N
      _ = 2 ^ N * (w / 2 ^ N) + w % 2 ^ N := by rw [h, Nat.mul_comm]
      _ = w := Nat.div_add_mod w (2 ^ N)
  · rintro ⟨v, hv, rfl⟩
    calc (1 * 2 ^ N + v) / 2 ^ N
      _ = 1 + v / 2 ^ N := by rw [Nat.add_comm, Nat.add_mul_div_right _ _ hpos, Nat.add_comm]
      _ = 1 := by rw [Nat.div_eq_of_lt (wellFormed_set.mp hv)]

/-- Settles O39: a line with the full mask names the one word of its command, the line with the op mask
the words of every duty value. -/
theorem opcodeRowsAgreeWithDecoder : Obligations.OpcodeRowsAgreeWithDecoder := by
  intro N w r hw hr
  simp only [decode_ofNat_eq_command_iff hw]
  simp only [opcodeRows, List.mem_cons, List.not_mem_nil, or_false] at hr
  obtain rfl | rfl | rfl := hr
  · simp only [hits_full_mask_iff hw, mnemonic_eq_tick_iff]
    simp [wellFormed_tick, Instr.opcode, Instr.payload, eq_comm]
  · rw [hits_op_mask_iff hw, div_eq_one_iff_set]
    simp only [mnemonic_eq_set_iff]
    exact ⟨fun ⟨v, h⟩ => ⟨.set v, h, v, rfl⟩, fun ⟨_, h, v, hi⟩ => ⟨v, hi ▸ h⟩⟩
  · simp only [hits_full_mask_iff hw, mnemonic_eq_sample_iff]
    simp [wellFormed_sample, Instr.opcode, Instr.payload, Nat.shiftLeft_eq, eq_comm]

/-! ## The reserved words -/

theorem reservedBelow_add_of_command {N k : Nat} :
    ∀ m, (∀ j < m, ∃ i, decode N ⟨N + 2, BitVec.ofNat (N + 2) (k + j)⟩ = .command i) →
      reservedBelow N (k + m) = reservedBelow N k
  | 0, _ => rfl
  | m + 1, h => by
    obtain ⟨i, hi⟩ := h m (Nat.lt_succ_self m)
    rw [← Nat.add_assoc, reservedBelow, hi]
    exact reservedBelow_add_of_command m fun j hj => h j (Nat.lt_succ_of_lt hj)

theorem reservedBelow_add_of_invalid {N k : Nat} :
    ∀ m, (∀ j < m, ∃ why, decode N ⟨N + 2, BitVec.ofNat (N + 2) (k + j)⟩ = .invalid why) →
      reservedBelow N (k + m) = reservedBelow N k + m
  | 0, _ => rfl
  | m + 1, h => by
    obtain ⟨i, hi⟩ := h m (Nat.lt_succ_self m)
    rw [← Nat.add_assoc, reservedBelow, hi, ← Nat.add_assoc]
    exact congrArg (· + 1) (reservedBelow_add_of_invalid m fun j hj => h j (Nat.lt_succ_of_lt hj))

/-- Among the words of an op of which payload 0 alone is a command, all the rest are reserved (rule
R55). -/
theorem reservedBelow_succ_op_of_rest {op : Nat} {i : Instr} {why : Reserved} (N : Nat) (ho : op < 4)
    (hzero : decodeFields (BitVec.ofNat 2 op) 0 = .command i)
    (hrest : ∀ p, p ≠ 0 → decodeFields (BitVec.ofNat 2 op) p = .invalid why) :
    reservedBelow N ((op + 1) * 2 ^ N) = reservedBelow N (op * 2 ^ N) + (2 ^ N - 1) := by
  have hpos := Nat.two_pow_pos N
  have hcommand : reservedBelow N (op * 2 ^ N + 1) = reservedBelow N (op * 2 ^ N) := by
    refine reservedBelow_add_of_command 1 fun j hj => ⟨i, ?_⟩
    rw [Nat.lt_one_iff.mp hj]
    exact (decode_packFields ho hpos).trans hzero
  have hinvalid : reservedBelow N (op * 2 ^ N + 1 + (2 ^ N - 1)) =
      reservedBelow N (op * 2 ^ N + 1) + (2 ^ N - 1) := by
    refine reservedBelow_add_of_invalid _ fun j hj => ⟨why, ?_⟩
    rw [Nat.add_assoc]
    exact (decode_packFields ho (by omega)).trans (hrest _ (by omega))
  rw [Nat.succ_mul, ← hcommand, ← hinvalid, Nat.add_assoc, Nat.add_sub_cancel' hpos]

/-- Settles O40: the words of each op in turn; `TICK` and `SAMPLE` have one word each, `SET` has all of
op 1, and op 3 is reserved whole. -/
theorem reservedWordCount : Obligations.ReservedWordCount := by
  intro N
  have htick : reservedBelow N (1 * 2 ^ N) = reservedBelow N (0 * 2 ^ N) + (2 ^ N - 1) :=
    reservedBelow_succ_op_of_rest (i := .tick) (why := .tickPayload) N (by decide) rfl
      fun p hp => by simp [decodeFields, hp]
  have hset : reservedBelow N (1 * 2 ^ N + 2 ^ N) = reservedBelow N (1 * 2 ^ N) :=
    reservedBelow_add_of_command _ fun j hj => ⟨.set j, decode_packFields (by decide) hj⟩
  have hsample : reservedBelow N (3 * 2 ^ N) = reservedBelow N (2 * 2 ^ N) + (2 ^ N - 1) :=
    reservedBelow_succ_op_of_rest (i := .sample) (why := .samplePayload) N (by decide) rfl
      fun p hp => by simp [decodeFields, hp]
  have hreserved : reservedBelow N (3 * 2 ^ N + 2 ^ N) = reservedBelow N (3 * 2 ^ N) + 2 ^ N :=
    reservedBelow_add_of_invalid _ fun j hj => ⟨.opReserved, decode_packFields (by decide) hj⟩
  rw [← Nat.succ_mul] at hset hreserved
  calc reservedBelow N (2 ^ (N + 2))
    _ = reservedBelow N (4 * 2 ^ N) := by rw [Nat.pow_add, Nat.mul_comm]
    _ = reservedBelow N (0 * 2 ^ N) + (2 ^ N - 1) + (2 ^ N - 1) + 2 ^ N := by
      rw [hreserved, hsample, hset, htick]
    _ = 2 * (2 ^ N - 1) + 2 ^ N := by
      rw [Nat.zero_mul, reservedBelow, Nat.zero_add, Nat.two_mul]

end Sys2Proof.Machine
end

section
/-! What every command and every step keeps: the edge count, definedness, the phase as the number of
edges, the X of the trace within the draws (rules R16, R34, R68, R71, R106). -/

namespace Sys2Proof.Machine

/-! ## From commands to steps and lists -/

/-- A step is a command on the state with the word taken off, so it keeps what both keep. -/
theorem step_keeps {P : State → Prop} (hstream : ∀ s ws, P s → P (s.setStream ws))
    (hexec : ∀ i s t, P s → exec i s = .next t → P t) {s t : State} (hs : P s) (h : step s = .next t) :
    P t := by
  obtain ⟨_, rest, i, -, -, -, hstep⟩ := step_cases h
  exact hexec i _ t (hstream s rest hs) hstep

/-- What a command brings about and every command keeps holds after each list that has the command. -/
theorem execAll_establishes {P : State → Prop} (hP : ∀ i s t, P s → exec i s = .next t → P t) {i : Instr}
    (hi : ∀ s t, exec i s = .next t → P t) :
    ∀ {is : List Instr} {s t : State}, i ∈ is → execAll is s = .next t → P t
  | j :: is, s, t, hmem, h => by
    obtain ⟨u, hu, ht⟩ := execAll_cons_inv h
    obtain rfl | hmem := List.mem_cons.mp hmem
    · exact execAll_keeps hP is u t (hi s u hu) ht
    · exact execAll_establishes hP hi hmem ht

/-! ## The edge count -/

theorem execAll_edges :
    ∀ {is : List Instr} {s t : State}, execAll is s = .next t → t.edges = s.edges + tickCount is
  | [], s, t, h => by
    cases h
    rfl
  | i :: is, s, t, h => by
    obtain ⟨u, hu, ht⟩ := execAll_cons_inv h
    rw [execAll_edges ht, exec_edges hu, tickCount, Nat.add_assoc]

theorem step_edges {s t : State} (h : step s = .next t) : t.edges = s.edges ∨ t.edges = s.edges + 1 := by
  obtain ⟨_, rest, i, -, -, -, hstep⟩ := step_cases h
  rw [exec_edges hstep]
  split
  · exact .inr rfl
  · exact .inl rfl

/-- Settles O22: each command adds its own edge or none, and the comparator reads no edge count. -/
theorem edgesCountTicks : Obligations.EdgesCountTicks :=
  ⟨State.powerOn_edges, fun _ _ _ => execAll_edges, fun _ _ => step_edges, led_setEdges⟩

/-! ## Definedness -/

theorem exec_keeps_edged {i : Instr} {s t : State} (hs : 1 ≤ s.edges) (h : exec i s = .next t) :
    1 ≤ t.edges := by
  rw [exec_edges h]
  exact Nat.le_add_right_of_le hs

theorem exec_keeps_driven {i : Instr} {s t : State} (hs : s.value.isSome) (h : exec i s = .next t) :
    t.value.isSome := by
  obtain ⟨-, rfl⟩ | ⟨v, -, -, rfl⟩ | ⟨-, rfl⟩ := exec_cases h
  · exact hs
  · rfl
  · obtain ⟨r, d, e⟩ := s.observe_writes_trace_and_draws
    rw [e]
    exact hs

theorem exec_keeps_ready {i : Instr} {s t : State} (hs : Ready s) (h : exec i s = .next t) : Ready t := by
  obtain ⟨he, hv⟩ := hs
  exact ⟨exec_keeps_edged he h, exec_keeps_driven hv h⟩

/-- `TICK` counts an edge and `SET` drives `value`, and no command takes either back (rule R106). -/
theorem execAll_ready {is : List Instr} {s t : State} {v : Nat} (htick : .tick ∈ is) (hset : .set v ∈ is)
    (h : execAll is s = .next t) : Ready t := by
  constructor
  · refine execAll_establishes (fun _ _ _ => exec_keeps_edged) (fun s t h => ?_) htick h
    rw [exec_edges h]
    exact Nat.le_add_left 1 s.edges
  · refine execAll_establishes (P := fun t => t.value.isSome) (fun _ _ _ => exec_keeps_driven)
      (fun s t h => ?_) hset h
    obtain ⟨hi, -⟩ | ⟨w, -, -, rfl⟩ | ⟨hi, -⟩ := exec_cases h
    · cases hi
    · rfl
    · cases hi

/-- Settles O25: the list leaves a state where the output is defined. -/
theorem bootMakesSamplesDefined : Obligations.BootMakesSamplesDefined := by
  intro is s v hwf htick hset
  obtain ⟨t, ht⟩ := execAll_completes is s hwf
  have hready := execAll_ready htick hset ht
  obtain ⟨b, hb⟩ := definedLed_isSome_of_ready hready
  exact ⟨t, ht, hready, b, exec_sample_of_definedLed hb⟩

/-- What a command appends to the trace holds as many X as it draws at most; where samples are defined it
draws nothing. -/
theorem exec_undefined_le_draws {i : Instr} {s t : State} (h : exec i s = .next t) :
    (t.draws = s.draws ∧ undefinedSamples t.trace = undefinedSamples s.trace) ∨
    (definedLed s = none ∧ t.draws = s.draws + 1 ∧
      undefinedSamples t.trace ≤ undefinedSamples s.trace + 1) := by
  obtain ⟨-, rfl⟩ | ⟨v, -, -, rfl⟩ | ⟨-, rfl⟩ := exec_cases h
  · exact .inl ⟨rfl, rfl⟩
  · exact .inl ⟨rfl, rfl⟩
  · obtain ⟨b, -, e⟩ | ⟨hnone, e⟩ := s.observe_cases
    · rw [e]
      refine .inl ⟨rfl, ?_⟩
      rw [State.setTrace_trace, undefinedSamples_append]
      simp [undefinedSamples, triOfBit_ne_x]
    · rw [e]
      refine .inr ⟨hnone, rfl, ?_⟩
      rw [State.setDraws_trace, State.setTrace_trace, undefinedSamples_append]
      apply Nat.add_le_add_left
      rw [undefinedSamples_eq_count]
      exact List.count_le_length

/-- Settles O26: where a sample is defined nothing is drawn. -/
theorem definednessIsKept : Obligations.DefinednessIsKept := by
  intro s t hs h
  refine ⟨step_keeps (fun _ _ hs => hs) (fun _ _ _ => exec_keeps_ready) hs h, ?_⟩
  obtain ⟨_, rest, i, -, -, -, hstep⟩ := step_cases h
  obtain hkept | ⟨hnone, -, -⟩ := exec_undefined_le_draws hstep
  · exact hkept
  · obtain ⟨b, hb⟩ := definedLed_isSome_of_ready (s := s.setStream rest) hs
    cases hb.symm.trans hnone

/-- Settles O28: an X more is a draw more. -/
theorem undefinedSamplesAreDraws : Obligations.UndefinedSamplesAreDraws := by
  intro s t
  refine step_keeps (fun _ _ hs => hs) fun i s t hs h => ?_
  rw [XOnlyDrawn] at hs ⊢
  obtain ⟨hd, hx⟩ | ⟨-, hd, hx⟩ := exec_undefined_le_draws h
  · omega
  · omega

/-! ## The phase -/

theorem exec_keeps_countsEdges {i : Instr} {s t : State} (hs : CountsEdges s) (h : exec i s = .next t) :
    CountsEdges t := by
  obtain ⟨hN, -, -⟩ := exec_keeps h
  rw [CountsEdges] at hs ⊢
  rw [exec_cnt_toNat h, exec_edges h, hN]
  split
  · rw [nextCnt_toNat, hs, Nat.mod_add_mod]
  · exact hs

/-- Settles O27: an edge moves both sides by one modulo `2^N`, any other command neither. -/
theorem phaseCountsEdgesIsKept : Obligations.PhaseCountsEdgesIsKept := fun _ _ =>
  step_keeps (fun _ _ hs => hs) fun _ _ _ => exec_keeps_countsEdges

/-- Settles O29: no edge has been counted and nothing sampled. -/
theorem invariantsHoldAtPowerOn : Obligations.InvariantsHoldAtPowerOn := by
  intro N h
  constructor
  · rw [CountsEdges, State.powerOn_cnt, State.powerOn_edges, Nat.zero_mod]
    exact BitVec.toNat_zero
  · exact Nat.zero_le _

end Sys2Proof.Machine
end

section
/-! The phase, the width and the driven value determine the samples, whatever came before (rule R36). -/

namespace Sys2Proof.Machine

theorem definedLed_eq_led {s : State} (h : Ready s) : definedLed s = led s := by
  obtain ⟨he, -⟩ := h
  simp [definedLed, he]

/-- Two states past their first edge that agree on width, phase and driven value. -/
structure SamePhase (s t : State) : Prop where
  width : s.N = t.N
  cnt : s.cnt.toNat = t.cnt.toNat
  value : s.value.map BitVec.toNat = t.value.map BitVec.toNat
  ready_left : Ready s
  ready_right : Ready t

/-- The duty value that a command drives. -/
def drives : Instr → Option Nat
  | .tick => none
  | .set v => some v
  | .sample => none

/-- `value` holds what the command drives, else what it held (rule R33). -/
theorem exec_value_toNat {i : Instr} {s t : State} (h : exec i s = .next t) :
    t.value.map BitVec.toNat = (drives i).or (s.value.map BitVec.toNat) := by
  obtain ⟨rfl, rfl⟩ | ⟨v, rfl, hv, rfl⟩ | ⟨rfl, rfl⟩ := exec_cases h
  · rfl
  · exact State.setValue_ofNat_toNat hv
  · exact s.observe_value_toNat

theorem exec_trace_of_ne_sample {i : Instr} {s t : State} (hi : i ≠ .sample) (h : exec i s = .next t) :
    t.trace = s.trace := by
  obtain ⟨l, hl, hlen, -⟩ := exec_trace h
  rw [if_neg hi, List.length_eq_zero_iff] at hlen
  rw [hl, hlen, List.append_nil]

theorem exec_keeps_samePhase {i : Instr} {s t s' t' : State} (h : SamePhase s t) (hs : exec i s = .next s')
    (ht : exec i t = .next t') : SamePhase s' t' := by
  obtain ⟨hNs, -, -⟩ := exec_keeps hs
  obtain ⟨hNt, -, -⟩ := exec_keeps ht
  constructor
  · rw [hNs, hNt, h.width]
  · rw [exec_cnt_toNat hs, exec_cnt_toNat ht, nextCnt_toNat, nextCnt_toNat, h.cnt, h.width]
  · rw [exec_value_toNat hs, exec_value_toNat ht, h.value]
  · exact exec_keeps_ready h.ready_left hs
  · exact exec_keeps_ready h.ready_right ht

/-- In the same phase the defined outputs are the same. -/
theorem exec_trace_samePhase {i : Instr} {s t s' t' : State} (h : SamePhase s t) (hs : exec i s = .next s')
    (ht : exec i t = .next t') : ∃ l, s'.trace = s.trace ++ l ∧ t'.trace = t.trace ++ l := by
  by_cases hi : i = .sample
  · subst hi
    obtain ⟨b, hb⟩ := definedLed_isSome_of_ready h.ready_left
    have hb' : definedLed t = some b := by
      rw [← hb, definedLed_eq_led h.ready_left, definedLed_eq_led h.ready_right, led_congr h.cnt h.value]
    cases hs.symm.trans (exec_sample_of_definedLed hb)
    cases ht.symm.trans (exec_sample_of_definedLed hb')
    exact ⟨[triOfBit b], rfl, rfl⟩
  · exact ⟨[], by rw [exec_trace_of_ne_sample hi hs, List.append_nil],
      by rw [exec_trace_of_ne_sample hi ht, List.append_nil]⟩

theorem execAll_samePhase :
    ∀ (is : List Instr) {s t : State}, SamePhase s t → AllWellFormed s.N is →
      ∃ s' t' l, execAll is s = .next s' ∧ execAll is t = .next t' ∧
        s'.trace = s.trace ++ l ∧ t'.trace = t.trace ++ l
  | [], s, t, _, _ => ⟨s, t, [], rfl, rfl, (List.append_nil _).symm, (List.append_nil _).symm⟩
  | i :: is, s, t, h, hwf => by
    obtain ⟨hi, his⟩ := List.forall_mem_cons.mp hwf
    obtain ⟨s', hs'⟩ := exec_completes hi
    obtain ⟨t', ht'⟩ := exec_completes (s := t) (by rwa [← h.width])
    obtain ⟨l, hls, hlt⟩ := exec_trace_samePhase h hs' ht'
    obtain ⟨hN, -, -⟩ := exec_keeps hs'
    obtain ⟨s'', t'', k, hs'', ht'', hks, hkt⟩ :=
      execAll_samePhase is (exec_keeps_samePhase h hs' ht') (by rwa [hN])
    refine ⟨s'', t'', l ++ k, (execAll_cons_next hs').trans hs'', (execAll_cons_next ht').trans ht'', ?_, ?_⟩
    · rw [hks, hls, List.append_assoc]
    · rw [hkt, hlt, List.append_assoc]

/-- Settles O24: the two states are in the same phase. -/
theorem phaseAloneDeterminesSamples : Obligations.PhaseAloneDeterminesSamples :=
  fun is _ _ hN hc hv hs ht hwf => execAll_samePhase is ⟨hN, hc, hv, hs, ht⟩ hwf

end Sys2Proof.Machine
end

section
/-! A counter of another width, compared modulo `2^N` (rule R10). -/

namespace Sys2Proof.Machine

/-- The block agrees with one of a wider counter on what the comparison modulo `2^N` reads. -/
structure AgreesWithWide {W : Nat} (s : State) (b : WideBlock W) : Prop where
  cnt : s.cnt.toNat = b.cnt.toNat % 2 ^ s.N
  value : s.value.map BitVec.toNat = b.value

theorem agreesWithWide_powerOn (N : Nat) (h : 1 ≤ N) (W : Nat) :
    AgreesWithWide (State.powerOn N h) (widePowerOn W) := by
  constructor
  · simp [widePowerOn, Config.cntReset]
  · rfl

/-- A wrap of the wider counter is no wrap modulo `2^N` that the narrow one misses: `2^N` divides `2^W`. -/
theorem nextCnt_mod_two_pow {N W : Nat} (h : N ≤ W) (c : BitVec W) :
    (nextCnt c).toNat % 2 ^ N = (c.toNat % 2 ^ N + 1) % 2 ^ N := by
  rw [nextCnt_toNat, Nat.mod_mod_of_dvd _ (Nat.pow_dvd_pow 2 h), Nat.mod_add_mod]

theorem wideExec_cnt {W : Nat} (i : Instr) (b : WideBlock W) :
    (wideExec i b).cnt = if i = .tick then nextCnt b.cnt else b.cnt := by
  cases i <;> rfl

theorem wideExec_value {W : Nat} (i : Instr) (b : WideBlock W) :
    (wideExec i b).value = (drives i).or b.value := by
  cases i <;> rfl

theorem exec_agreesWithWide {W : Nat} {s : State} {b : WideBlock W} {i : Instr} {t : State} (hW : s.N ≤ W)
    (h : AgreesWithWide s b) (ht : exec i s = .next t) : AgreesWithWide t (wideExec i b) := by
  obtain ⟨hN, -, -⟩ := exec_keeps ht
  constructor
  · rw [exec_cnt_toNat ht, wideExec_cnt, hN]
    split
    · rw [nextCnt_mod_two_pow hW, nextCnt_toNat, h.cnt]
    · exact h.cnt
  · rw [exec_value_toNat ht, wideExec_value, h.value]

theorem execAll_agreesWithWide {W : Nat} :
    ∀ (is : List Instr) {s t : State} {b : WideBlock W}, s.N ≤ W → AgreesWithWide s b →
      execAll is s = .next t → AgreesWithWide t (wideExecAll is b)
  | [], s, t, b, _, h, ht => by
    cases ht
    exact h
  | i :: is, s, t, b, hW, h, ht => by
    obtain ⟨u, hu, ht⟩ := execAll_cons_inv ht
    obtain ⟨hN, -, -⟩ := exec_keeps hu
    exact execAll_agreesWithWide is (hN ▸ hW) (exec_agreesWithWide hW h hu) ht

theorem led_eq_wideLed {W : Nat} {s : State} {b : WideBlock W} (h : AgreesWithWide s b) :
    led s = wideLed s.N b := by
  rw [led_eq_compare_numbers, h.value, h.cnt, wideLed]
  cases b.value with
  | none => rfl
  | some v => exact congrArg some (bit_decide _).symm

/-- Settles O50: the two blocks agree at power-on and every command keeps them in agreement. -/
theorem widerCounterShowsTheSameLed : Obligations.WiderCounterShowsTheSameLed := by
  intro N h W is hW hwf
  obtain ⟨t, ht⟩ := execAll_completes is (State.powerOn N h) hwf
  have hagree := execAll_agreesWithWide is hW (agreesWithWide_powerOn N h W) ht
  exact ⟨t, ht, (led_eq_wideLed hagree).trans (congrArg (wideLed · _) (execAll_keeps_width ht))⟩

end Sys2Proof.Machine
end

section
/-! One step of the host's stream, and whole streams (rules R47, R55, R56, R61, R107). -/

namespace Sys2Proof.Machine

/-! ## What a step does -/

theorem step_of_decode {s : State} {w : Word} {rest : List Word} {i : Instr} (hm : s.mark = none)
    (hs : s.stream = w :: rest) (hd : decode s.N w = .command i) : step s = exec i (s.setStream rest) := by
  simp only [step, State.fetch, hm, hs, hd]

theorem step_of_invalid {s : State} {w : Word} {rest : List Word} {why : Reserved} (hm : s.mark = none)
    (hs : s.stream = w :: rest) (hd : decode s.N w = .invalid why) :
    step s = .refused (.reservedCommand why) := by
  simp only [step, State.fetch, hm, hs, hd]

theorem step_of_mark {s : State} {r : Refusal} (hm : s.mark = some r) : step s = .refused r := by
  simp only [step, State.fetch, hm]

theorem step_of_stream_nil {s : State} (hm : s.mark = none) (hs : s.stream = []) :
    step s = .refused .streamEnded := by
  simp only [step, State.fetch, hm, hs]

/-- Settles O30: the fetch decodes that word and takes it off the stream. -/
theorem stepRunsDecodedCommand : Obligations.StepRunsDecodedCommand := fun _ _ _ _ => step_of_decode

/-- Settles O31: the three ways in which the fetch stops. -/
theorem stepStopsByName : Obligations.StepStopsByName :=
  ⟨fun _ _ _ _ => step_of_invalid, fun _ _ => step_of_mark, fun _ => step_of_stream_nil⟩

/-- Settles O33: the command ran on the state without its word, and keeps width, stream and mark. -/
theorem stepFrame : Obligations.StepFrame := by
  intro s t h
  obtain ⟨w, rest, i, hm, hs, -, hexec⟩ := step_cases h
  obtain ⟨hN, hstream, hmark⟩ := exec_keeps hexec
  exact ⟨hm, hmark.trans hm, hN, w, hs.trans (congrArg (w :: ·) hstream.symm)⟩

/-! ## A refused run -/

theorem advance_of_refused {s : State} {r : Refusal} (h : step s = .refused r) :
    s.advance = s.noteRefusal r := by
  rw [State.advance, h]

theorem setMark_of_mark {s : State} {m : Option Refusal} (h : s.mark = m) : s.setMark m = s := by
  rw [← h]
  rfl

/-- A run marked by a reserved word stays as it is (rule R55). -/
theorem runFor_of_mark {s : State} {why : Reserved} (hm : s.mark = some (.reservedCommand why)) :
    ∀ k, s.runFor k = s
  | 0 => rfl
  | k + 1 => by
    have hadvance : s.advance = s := (advance_of_refused (step_of_mark hm)).trans (setMark_of_mark hm)
    rw [State.runFor, hadvance, runFor_of_mark hm k]

/-- Settles O32: the first of the steps marks the run, and a marked run stays as it is. -/
theorem refusalMarkIsKept : Obligations.RefusalMarkIsKept := by
  intro s w rest why k hm hs hd
  rw [State.runFor, advance_of_refused (step_of_invalid hm hs hd)]
  exact runFor_of_mark rfl k

/-! ## Streams of commands -/

@[simp] theorem definedLed_setStream (s : State) (ws : List Word) :
    definedLed (s.setStream ws) = definedLed s := rfl

theorem observe_setStream (s : State) (ws : List Word) :
    (s.setStream ws).observe = s.observe.setStream ws := by
  obtain ⟨b, h, e⟩ | ⟨h, e⟩ := s.observe_cases
  · rw [e, State.observe, definedLed_setStream, h]
    rfl
  · rw [e, State.observe, definedLed_setStream, h]
    rfl

/-- A command does not read what the host has yet to issue. -/
theorem exec_setStream {i : Instr} {s t : State} (h : exec i s = .next t) (ws : List Word) :
    exec i (s.setStream ws) = .next (t.setStream ws) := by
  obtain ⟨rfl, rfl⟩ | ⟨v, rfl, hv, rfl⟩ | ⟨rfl, rfl⟩ := exec_cases h
  · rfl
  · exact exec_set_of_lt (s := s.setStream ws) hv
  · rw [exec_sample, observe_setStream]

theorem setStream_of_stream {s : State} {ws : List Word} (h : s.stream = ws) : s.setStream ws = s := by
  rw [← h]
  rfl

/-- One step for each command, each from what those before it left (rules R47, R61). -/
theorem run_wordsOf :
    ∀ (is : List Instr) {s : State} {rest : List Word}, AllWellFormed s.N is → s.mark = none →
      s.stream = wordsOf s.N is ++ rest →
      Host.Core.run Sys2Proof.core is.length s = execAll is (s.setStream rest)
  | [], _, rest, _, _, hs => congrArg Host.Outcome.next (setStream_of_stream (ws := rest) hs).symm
  | i :: is, s, rest, hwf, hm, hs => by
    obtain ⟨hi, his⟩ := List.forall_mem_cons.mp hwf
    have hstep : step s = exec i (s.setStream (wordsOf s.N is ++ rest)) :=
      step_of_decode hm hs (decode_encode hi)
    obtain ⟨t, ht⟩ := exec_completes (s := s.setStream (wordsOf s.N is ++ rest)) hi
    obtain ⟨hN, hstream, hmark⟩ := exec_keeps ht
    rw [List.length_cons, run_succ Sys2Proof.core (hstep.trans ht),
      run_wordsOf is (rest := rest) (by rwa [hN]) (hmark.trans hm) (by rw [hstream, hN]; rfl)]
    exact (execAll_cons_next (exec_setStream ht rest)).symm

theorem execAll_keeps_stream {is : List Instr} {s t : State} (h : execAll is s = .next t) :
    t.stream = s.stream := by
  refine execAll_keeps (P := fun u => u.stream = s.stream) (fun i u u' hu hexec => ?_) is s t rfl h
  obtain ⟨-, hstream, -⟩ := exec_keeps hexec
  exact hstream.trans hu

/-- Settles O34: by induction on the list; no command touches the words still to come. -/
theorem streamRunsCommandsInOrder : Obligations.StreamRunsCommandsInOrder := by
  intro is s rest hwf hm hs
  obtain ⟨t, ht⟩ := execAll_completes is (s.setStream rest) hwf
  exact ⟨run_wordsOf is hwf hm hs, t, ht, execAll_keeps_stream ht⟩

/-! ## The word in a container -/

theorem step_withFetchWord {s : State} {nbits w : Nat} {i : Instr}
    (h : decode s.N (containerWord s.N nbits w) = .command i) :
    step (s.withFetchWord nbits w) = exec i ((s.setStream s.stream.tail).setMark none) :=
  step_of_decode (s := s.withFetchWord nbits w) rfl rfl h

theorem decodeTableWord_eq_some {nbits w : Nat} {i : Instr} (h : decodeTableWord nbits w = some i) :
    decode Config.referenceN (containerWord Config.referenceN nbits w) = .command i := by
  rw [decodeTableWord] at h
  split at h
  · rename_i hd
    rw [hd, Option.some.inj h]
  · cases h

/-- Settles O35: the container's word is the next one of an unmarked run; at reset there is neither a
word nor a mark to take off. -/
theorem fetchWordRunsNext : Obligations.FetchWordRunsNext :=
  ⟨fun _ _ _ _ => step_withFetchWord,
    fun _ _ _ h => step_withFetchWord (s := State.reset) (decodeTableWord_eq_some h)⟩

end Sys2Proof.Machine
end

section
/-! The pseudo-instructions and the assembler (rules R59, R60). -/

namespace Sys2Proof.Machine

/-! ## Expansions -/

theorem wordsOf_testvec (N v s m : Nat) :
    wordsOf N (testvecCommands v s m) =
      encode N (.set v) :: (List.replicate s (encode N .tick) ++
        (List.replicate m [encode N .tick, encode N .sample]).flatten) := by
  rw [testvecCommands, ticksCommands_eq_replicate, measureCommands_eq_flatten, wordsOf, List.map_cons,
    List.map_append, List.map_replicate, List.map_flatten, List.map_replicate]
  rfl

/-- Settles O42: the recursions of the expansions as repetitions. -/
theorem pseudoInstructionsExpand : Obligations.PseudoInstructionsExpand :=
  ⟨fun k => ⟨ticksCommands_eq_replicate k, ticksCommands_eq_replicate k⟩, rfl, measureCommands_eq_flatten,
    wordsOf_testvec⟩

theorem allWellFormed_ticksCommands (N k : Nat) : AllWellFormed N (ticksCommands k) := by
  intro i hi
  rw [ticksCommands_eq_replicate] at hi
  rw [List.eq_of_mem_replicate hi]
  rfl

theorem allWellFormed_append {N : Nat} {is js : List Instr} (hi : AllWellFormed N is)
    (hj : AllWellFormed N js) : AllWellFormed N (is ++ js) :=
  List.forall_mem_append.mpr ⟨hi, hj⟩

theorem allWellFormed_measureCommands (N : Nat) : ∀ m, AllWellFormed N (measureCommands m)
  | 0 => List.forall_mem_nil _
  | m + 1 => allWellFormed_append allWellFormed_stepCommands (allWellFormed_measureCommands N m)

theorem allWellFormed_testvecCommands {N v : Nat} (hv : v < 2 ^ N) (s m : Nat) :
    AllWellFormed N (testvecCommands v s m) :=
  List.forall_mem_cons.mpr ⟨wellFormed_set.mpr hv,
    allWellFormed_append (allWellFormed_ticksCommands N s) (allWellFormed_measureCommands N m)⟩

/-! ## The assembler -/

/-- If the assembler accepts, what it gives is of the block. -/
def AsmResult.Sound (N : Nat) (r : AsmResult) : Prop := ∀ is, r = .commands is → AllWellFormed N is

theorem sound_commands {N : Nat} {is : List Instr} (h : AllWellFormed N is) :
    AsmResult.Sound N (.commands is) := by
  rintro _ ⟨⟩
  exact h

theorem sound_refused (N : Nat) (why : AsmError) : AsmResult.Sound N (.refused why) := by
  rintro _ ⟨⟩

theorem sound_withDuty {N : Nat} {tok : List Char} {f : Nat → List Instr}
    (hf : ∀ v, v < 2 ^ N → AllWellFormed N (f v)) : (withDuty N tok f).Sound N := by
  rw [withDuty]
  split
  · split
    · rename_i hv
      exact sound_commands (hf _ hv)
    · exact sound_refused N _
  · exact sound_refused N _

theorem sound_withCount {N : Nat} {tok : List Char} {f : Nat → AsmResult} (hf : ∀ k, (f k).Sound N) :
    (withCount tok f).Sound N := by
  rw [withCount]
  split
  · exact hf _
  · exact sound_refused N _

theorem sound_ite {N : Nat} {p : Prop} [Decidable p] {r r' : AsmResult} (h : r.Sound N) (h' : r'.Sound N) :
    (if p then r else r').Sound N := by
  split
  · exact h
  · exact h'

theorem sound_assembleTokens (N : Nat) (toks : List (List Char)) : (assembleTokens N toks).Sound N := by
  have hset : ∀ v, v < 2 ^ N → AllWellFormed N [.set v] := fun v hv =>
    List.forall_mem_singleton.mpr (wellFormed_set.mpr hv)
  have hticks : ∀ k, AsmResult.Sound N (.commands (ticksCommands k)) := fun k =>
    sound_commands (allWellFormed_ticksCommands N k)
  have hmeasure : ∀ k, AsmResult.Sound N (.commands (measureCommands k)) := fun k =>
    sound_commands (allWellFormed_measureCommands N k)
  unfold assembleTokens
  split
  · exact sound_commands (List.forall_mem_nil _)
  · exact sound_ite (sound_commands (List.forall_mem_singleton.mpr wellFormed_tick))
      (sound_ite (sound_commands (List.forall_mem_singleton.mpr wellFormed_sample))
        (sound_ite (sound_commands allWellFormed_stepCommands) (sound_refused N _)))
  · exact sound_ite (sound_withDuty hset) (sound_ite (sound_withCount hticks)
      (sound_ite (sound_withCount hticks) (sound_ite (sound_withCount hmeasure) (sound_refused N _))))
  · exact sound_ite (sound_withCount fun s => sound_withCount fun k =>
      sound_withDuty fun v hv => allWellFormed_testvecCommands hv s k) (sound_refused N _)
  · exact sound_refused N _

theorem sound_assemble (N : Nat) : ∀ ls, (assemble N ls).Sound N
  | [] => sound_commands (List.forall_mem_nil _)
  | l :: ls => by
    have hline : (assembleLine N l).Sound N := sound_assembleTokens N _
    have hrest := sound_assemble N ls
    rw [assemble]
    split
    · exact sound_refused N _
    · rename_i is his
      split
      · exact sound_refused N _
      · rename_i js hjs
        exact sound_commands (allWellFormed_append (hline is his) (hrest js hjs))

/-- A comment, and whatever stands in it, is stripped (rule R59). -/
theorem stripComment_append_comment (c : List Char) : ∀ l, stripComment (l ++ ';' :: c) = stripComment l
  | [] => rfl
  | d :: l => by
    rw [List.cons_append, stripComment, stripComment, stripComment_append_comment c l]

/-- Settles O43: every form of line gives commands of the block, and a comment is stripped first. -/
theorem assembledCommandsAreWellFormed : Obligations.AssembledCommandsAreWellFormed := by
  refine ⟨fun N ls => sound_assemble N ls, fun N l c => ?_⟩
  rw [assembleLine, assembleLine, stripComment_append_comment]

/-- Settles O44: the line is its duty literal's check. -/
theorem assemblerRefusesOutOfRange : Obligations.AssemblerRefusesOutOfRange := by
  intro N tok v htok
  have hline : assembleTokens N [['S', 'E', 'T'], tok] = withDuty N tok fun v => [.set v] := rfl
  rw [hline, withDuty, htok]
  exact ⟨fun h => if_pos h, fun h => if_neg (Nat.not_lt.mpr h)⟩

end Sys2Proof.Machine
end
